-- ==== Sys2Proof/Word.lean ====
section
/-! DEFINITION. The bit-vector types the MFE's registers and bus words have, and the word/register
geometry of rule R15. Values that software can read as a word are bit vectors; field elements,
scalars and exponents inside a command are natural numbers or integers (rule R9: exact arithmetic,
narrowed once when a register is written). -/

namespace Sys2Proof

/-- A 32-bit bus word (R36: the bus is 32 bits wide); also the width of a command word (R52). -/
abbrev Word := BitVec 32

/-- The contents of a 256-bit register: R0..R15, CURVE_A, CURVE_B and the constants (R7, R16). -/
abbrev Word256 := BitVec 256

/-- A four-bit register field of a command word: an operand register number 0..15, all four bits
significant (R53). -/
abbrev Reg := BitVec 4

/-- The number of a point register P0..P7 (R17). -/
abbrev PointReg := BitVec 3

end Sys2Proof
end

