-- ==== Sys2Proof/Config.lean ====
section
/-! DEFINITION. What is fixed for this hardware (rules R7, R20, R21, R22, R23) and the FREE VALUES:
the points the spec leaves open, each an `opaque` constant without a body, so that nothing in Lean
can evaluate one. -/

namespace Sys2Proof.Config

/-- The field modulus, 2^256 - 2^32 - 977 (R20). -/
def P : Nat := 0xFFFFFFFFFFFFFFFFFFFFFFFFFFFFFFFFFFFFFFFFFFFFFFFFFFFFFFFEFFFFFC2F

/-- The group order N (R21). -/
def N : Nat := 0xFFFFFFFFFFFFFFFFFFFFFFFFFFFFFFFEBAAEDCE6AF48A03BBFD25E8CD0364141

/-- The x-coordinate of the generator G (R22). -/
def Gx : Nat := 0x79BE667EF9DCBBAC55A06295CE870B07029BFCDB2DCE28D959F2815B16F81798

/-- The y-coordinate of the generator G (R22). -/
def Gy : Nat := 0x483ADA7726A3C4655DA4FBFC0E1108A8FD17B448A68554199C47D08FFB10D4B8

/-- The constant of the ID register, ASCII "MFE1" (R2, R23). -/
def idWord : Word := 0x4D464531#32

/-- The size in bytes of the register window (R7, R15). -/
def windowBytes : Nat := 4096

/-- FREE VALUE (log entry 1). LAT: how many turns the host side gets between the acceptance of a
command word and its completion step (R7, R60, R119: OPEN, finite, not architectural). Argument 1
is the accepted word, argument 2 the draw counter. The completion step itself is one turn more, so
a latency is at least one turn whatever this is. -/
opaque latency : Word → Nat → Nat

/-- FREE VALUE (log entry 2). The point PMUL writes on a singular curve: `none` is INF, a pair is
reduced into [0, P)² before it is written (R92; 93_implementation_defined.md U3). The argument is
the draw counter. -/
opaque singularPoint : Nat → Option (Nat × Nat)

/-- FREE VALUE (log entry 3). What the bus returns to an access while `rst_n` is asserted: whether
the response is SLVERR, and the data lines of a read. The spec gives the state then (R108) and no
response. The argument is the draw counter. -/
opaque replyInReset : Nat → Bool × Word

end Sys2Proof.Config
end

