-- ==== Sys2Proof/Syntax.lean ====
section
/-! DEFINITION. The commands of MFE-CS1 as abstract terms: one constructor for each row of
spec/opcode_table.json. Operand fields stand as the command word carries them (R52, R53, R55): an
operand-register field is four significant bits; a point-register field is four bits whose bit 3
must be 0 (WellFormed.lean checks that). -/

namespace Sys2Proof

/-- The modulus a field command computes under: M = 0 selects P, M = 1 selects N (R52, R64). -/
inductive Modulus where
  | P
  | N
deriving DecidableEq, Repr

/-- The commands of MFE-CS1 (R54, R55). -/
inductive Instr where
  /-- MADD.<m> rd, rs1, rs2 (R68). -/
  | madd (m : Modulus) (rd rs1 rs2 : Reg)
  /-- MSUB.<m> rd, rs1, rs2 (R69). -/
  | msub (m : Modulus) (rd rs1 rs2 : Reg)
  /-- MMUL.<m> rd, rs1, rs2 (R70). -/
  | mmul (m : Modulus) (rd rs1 rs2 : Reg)
  /-- MONT.<m> rd, rs1, rs2 (R71). -/
  | mont (m : Modulus) (rd rs1 rs2 : Reg)
  /-- MRED.<m> rd, rs1 (R72). -/
  | mred (m : Modulus) (rd rs1 : Reg)
  /-- MPOW.<m>[.S] rd, rs1, rs2; `signed` is the option S, bit F0 (R74). -/
  | mpow (m : Modulus) (signed : Bool) (rd rs1 rs2 : Reg)
  /-- MINV.<m> rd, rs1 (R75). -/
  | minv (m : Modulus) (rd rs1 : Reg)
  /-- MDIV.<m> rd, rs1, rs2 (R76). -/
  | mdiv (m : Modulus) (rd rs1 rs2 : Reg)
  /-- MSQRT.P rd, rs1 (R77). -/
  | msqrt (rd rs1 : Reg)
  /-- PADD pd, ps1, ps2 (R86). -/
  | padd (pd ps1 ps2 : Reg)
  /-- PDBL pd, ps1 (R87). -/
  | pdbl (pd ps1 : Reg)
  /-- PNEG pd, ps1 (R88). -/
  | pneg (pd ps1 : Reg)
  /-- PCHK ps1 (R89). -/
  | pchk (ps1 : Reg)
  /-- PMUL[.RN] pd, ps1, rk: the form with F1 = 0; `rn` is the option RN, bit F0 (R91). -/
  | pmul (rn : Bool) (pd ps1 rk : Reg)
  /-- PMUL[.RN] pd, G, rk: the form with F1 = 1 (R91). -/
  | pmulG (rn : Bool) (pd rk : Reg)
deriving DecidableEq, Repr

end Sys2Proof
end

