-- ==== Sys2Proof/WellFormed.lean ====
section
/-! DEFINITION. Which terms of `Instr` are commands: every point-register field has bit 3 equal to
0 (R53, R55). Everything else R55 asks of a word (fields that must be zero, M on MSQRT) has no place
in a term, so it is checked where words are read (Decode.lean). -/

namespace Sys2Proof

/-- A four-bit field names a point register only if its bit 3 is 0 (R53). -/
def isPointField (f : Reg) : Bool := !f.msb

/-- The term is a command of MFE-CS1: each of its point-register fields names a point register. -/
def Instr.wellFormed : Instr → Bool
  | .madd _ _ _ _ => true
  | .msub _ _ _ _ => true
  | .mmul _ _ _ _ => true
  | .mont _ _ _ _ => true
  | .mred _ _ _ => true
  | .mpow _ _ _ _ _ => true
  | .minv _ _ _ => true
  | .mdiv _ _ _ _ => true
  | .msqrt _ _ => true
  | .padd pd ps1 ps2 => isPointField pd && isPointField ps1 && isPointField ps2
  | .pdbl pd ps1 => isPointField pd && isPointField ps1
  | .pneg pd ps1 => isPointField pd && isPointField ps1
  | .pchk ps1 => isPointField ps1
  | .pmul _ pd ps1 _ => isPointField pd && isPointField ps1
  | .pmulG _ pd _ => isPointField pd

end Sys2Proof
end

