-- ==== Sys2Proof/Decode.lean ====
section
/-! DEFINITION. The command word (30_encoding.md): its fields (R52), the opcode map (R54), `Legal`
(R56), the decoder, total on every 32-bit word and rejecting by name, and after it the encoder
(R55). -/

namespace Sys2Proof

/-- The fields of a command word (R52). -/
structure CmdFields where
  opc : BitVec 6
  m : Bool
  f0 : Bool
  f1 : Bool
  /-- Bits 11:9, reserved. -/
  rsvLow : BitVec 3
  rd : Reg
  rs1 : Reg
  rs2 : Reg
  /-- Bits 31:24, reserved. -/
  rsvHigh : BitVec 8
deriving DecidableEq, Repr

/-- The fields of a word, by their bit places (R52). -/
def CmdFields.ofWord (w : Word) : CmdFields :=
  { opc := w.extractLsb' 0 6
    m := w.getLsbD 6
    f0 := w.getLsbD 7
    f1 := w.getLsbD 8
    rsvLow := w.extractLsb' 9 3
    rd := w.extractLsb' 12 4
    rs1 := w.extractLsb' 16 4
    rs2 := w.extractLsb' 20 4
    rsvHigh := w.extractLsb' 24 8 }

/-- The word with the given fields: the concatenation of R52's table, bit 31 leftmost. -/
def CmdFields.toWord (f : CmdFields) : Word :=
  f.rsvHigh ++ f.rs2 ++ f.rs1 ++ f.rd ++ f.rsvLow ++ BitVec.ofBool f.f1 ++ BitVec.ofBool f.f0 ++
    BitVec.ofBool f.m ++ f.opc

/-- The opcodes of the map R54. -/
inductive Opcode where
  | MADD | MSUB | MMUL | MONT | MRED | MPOW | MINV | MDIV | MSQRT | PADD | PDBL | PNEG | PCHK | PMUL
deriving DecidableEq, Repr

/-- The value of OPC that stands for an opcode (R54). -/
def Opcode.bits : Opcode → BitVec 6
  | .MADD => 0x01#6
  | .MSUB => 0x02#6
  | .MMUL => 0x03#6
  | .MONT => 0x04#6
  | .MRED => 0x05#6
  | .MPOW => 0x08#6
  | .MINV => 0x09#6
  | .MDIV => 0x0A#6
  | .MSQRT => 0x0B#6
  | .PADD => 0x10#6
  | .PDBL => 0x11#6
  | .PNEG => 0x12#6
  | .PCHK => 0x13#6
  | .PMUL => 0x18#6

/-- The opcode a value of OPC stands for; `none` where R54 lists none (reserved). -/
def Opcode.ofBits (b : BitVec 6) : Option Opcode :=
  match b.toNat with
  | 0x01 => some .MADD
  | 0x02 => some .MSUB
  | 0x03 => some .MMUL
  | 0x04 => some .MONT
  | 0x05 => some .MRED
  | 0x08 => some .MPOW
  | 0x09 => some .MINV
  | 0x0A => some .MDIV
  | 0x0B => some .MSQRT
  | 0x10 => some .PADD
  | 0x11 => some .PDBL
  | 0x12 => some .PNEG
  | 0x13 => some .PCHK
  | 0x18 => some .PMUL
  | _ => none

/-- `Legal(w)` of R56, on the fields of w, check by check in the order written there. -/
def CmdFields.legal (f : CmdFields) : Bool :=
  if f.rsvLow ≠ 0 ∨ f.rsvHigh ≠ 0 then false else
  match Opcode.ofBits f.opc with
  | none => false
  | some op =>
    if f.f0 ∧ op ∉ [Opcode.MPOW, .PMUL] then false
    else if f.f1 ∧ op ≠ .PMUL then false
    else if op ∈ [Opcode.MRED, .MINV, .MSQRT] ∧ f.rs2 ≠ 0 then false
    else if op = .MSQRT ∧ f.m then false
    else if 0x10#6 ≤ f.opc then
      if f.m then false
      else if (if op = .PCHK then f.rd ≠ 0 else f.rd.msb) then false
      else if (if op = .PMUL ∧ f.f1 then f.rs1 ≠ 0 else f.rs1.msb) then false
      else if op = .PADD ∧ f.rs2.msb then false
      else if op ∈ [Opcode.PDBL, .PNEG, .PCHK] ∧ f.rs2 ≠ 0 then false
      else true
    else true

/-- `Legal(w)` of R56. -/
def legal (w : Word) : Bool := (CmdFields.ofWord w).legal

/-- Why a word is no command (R57). Every one of them ends the command with ILLEGAL_CMD. -/
inductive Reject where
  /-- Bits 11:9 or 31:24 are not zero. -/
  | reservedBits
  /-- OPC is not in the opcode map. -/
  | reservedOpcode
  /-- F0 or F1 is set on a command without that option. -/
  | optionNotAllowed
  /-- M = 1 on MSQRT or on a point or scalar command. -/
  | modulusNotAllowed
  /-- RD, RS1 or RS2 is not zero where the command has no such operand. -/
  | fieldNotZero
  /-- Bit 3 of a point-register field is set. -/
  | pointFieldBit3
deriving DecidableEq, Repr

/-- The command `i`, if every listed requirement holds; else the reason of the first that fails. -/
def requiring : List (Bool × Reject) → Instr → Except Reject Instr
  | [], i => .ok i
  | (holds, reason) :: rest, i => if holds then requiring rest i else .error reason

/-- The modulus bit M selects (R52). -/
def Modulus.ofBit (b : Bool) : Modulus := if b then .N else .P

/-- The bit M that selects a modulus (R52). -/
def Modulus.bit : Modulus → Bool
  | .P => false
  | .N => true

/-- Reads a command from the fields of its word: what R55's table allows each opcode (R53, R55). -/
def decodeFields (f : CmdFields) : Except Reject Instr :=
  if f.rsvLow ≠ 0 ∨ f.rsvHigh ≠ 0 then .error .reservedBits else
  let noF0 := (!f.f0, Reject.optionNotAllowed)
  let noF1 := (!f.f1, Reject.optionNotAllowed)
  let noM := (!f.m, Reject.modulusNotAllowed)
  let noRd := (f.rd == 0, Reject.fieldNotZero)
  let noRs1 := (f.rs1 == 0, Reject.fieldNotZero)
  let noRs2 := (f.rs2 == 0, Reject.fieldNotZero)
  let pointRd := (isPointField f.rd, Reject.pointFieldBit3)
  let pointRs1 := (isPointField f.rs1, Reject.pointFieldBit3)
  let pointRs2 := (isPointField f.rs2, Reject.pointFieldBit3)
  let m := Modulus.ofBit f.m
  match Opcode.ofBits f.opc with
  | none => .error .reservedOpcode
  | some .MADD => requiring [noF0, noF1] (.madd m f.rd f.rs1 f.rs2)
  | some .MSUB => requiring [noF0, noF1] (.msub m f.rd f.rs1 f.rs2)
  | some .MMUL => requiring [noF0, noF1] (.mmul m f.rd f.rs1 f.rs2)
  | some .MONT => requiring [noF0, noF1] (.mont m f.rd f.rs1 f.rs2)
  | some .MRED => requiring [noF0, noF1, noRs2] (.mred m f.rd f.rs1)
  | some .MPOW => requiring [noF1] (.mpow m f.f0 f.rd f.rs1 f.rs2)
  | some .MINV => requiring [noF0, noF1, noRs2] (.minv m f.rd f.rs1)
  | some .MDIV => requiring [noF0, noF1] (.mdiv m f.rd f.rs1 f.rs2)
  | some .MSQRT => requiring [noF0, noF1, noRs2, noM] (.msqrt f.rd f.rs1)
  | some .PADD => requiring [noF0, noF1, noM, pointRd, pointRs1, pointRs2] (.padd f.rd f.rs1 f.rs2)
  | some .PDBL => requiring [noF0, noF1, noM, pointRd, pointRs1, noRs2] (.pdbl f.rd f.rs1)
  | some .PNEG => requiring [noF0, noF1, noM, pointRd, pointRs1, noRs2] (.pneg f.rd f.rs1)
  | some .PCHK => requiring [noF0, noF1, noM, noRd, pointRs1, noRs2] (.pchk f.rs1)
  | some .PMUL =>
    if f.f1 then requiring [noM, pointRd, noRs1] (.pmulG f.f0 f.rd f.rs2)
    else requiring [noM, pointRd, pointRs1] (.pmul f.f0 f.rd f.rs1 f.rs2)

/-- The decoder: total on every 32-bit word (R56, R57, R59). -/
def decode (w : Word) : Except Reject Instr := decodeFields (CmdFields.ofWord w)

/-- The fields of a command's word: R55's table, with F0, F1, RS1, RS2, RD and M zero where it says
0, and bits 11:9 and 31:24 zero. -/
def encodeFields : Instr → CmdFields
  | .madd m rd rs1 rs2 => field .MADD m false rd rs1 rs2
  | .msub m rd rs1 rs2 => field .MSUB m false rd rs1 rs2
  | .mmul m rd rs1 rs2 => field .MMUL m false rd rs1 rs2
  | .mont m rd rs1 rs2 => field .MONT m false rd rs1 rs2
  | .mred m rd rs1 => field .MRED m false rd rs1 0
  | .mpow m s rd rs1 rs2 => field .MPOW m s rd rs1 rs2
  | .minv m rd rs1 => field .MINV m false rd rs1 0
  | .mdiv m rd rs1 rs2 => field .MDIV m false rd rs1 rs2
  | .msqrt rd rs1 => field .MSQRT .P false rd rs1 0
  | .padd pd ps1 ps2 => field .PADD .P false pd ps1 ps2
  | .pdbl pd ps1 => field .PDBL .P false pd ps1 0
  | .pneg pd ps1 => field .PNEG .P false pd ps1 0
  | .pchk ps1 => field .PCHK .P false 0 ps1 0
  | .pmul rn pd ps1 rk => field .PMUL .P rn pd ps1 rk
  | .pmulG rn pd rk => { field .PMUL .P rn pd 0 rk with f1 := true }
where
  /-- A word's fields with F1 and the reserved bits zero. -/
  field (op : Opcode) (m : Modulus) (f0 : Bool) (rd rs1 rs2 : Reg) : CmdFields :=
    { opc := op.bits, m := m.bit, f0 := f0, f1 := false, rsvLow := 0, rd := rd, rs1 := rs1,
      rs2 := rs2, rsvHigh := 0 }

/-- The command word of a command (R52, R55). -/
def encode (i : Instr) : Word := (encodeFields i).toWord

/-- The pseudo-command `MSQR.<m> rd, rs` (R62). -/
def msqr (m : Modulus) (rd rs : Reg) : Instr := .mmul m rd rs rs

/-- The pseudo-command `PMULG[.RN] pd, rk` (R62). -/
def pmulgPseudo (rn : Bool) (pd rk : Reg) : Instr := .pmulG rn pd rk

/-- The command the decoder reads from a row's word, numbered as spec/opcode_table.json numbers its
bits: every row is one 32-bit word, so bit 0 of `w` is bit 0 of the command word, and bits at and
above `nbits` are zero. `none` where the decoder rejects the word. -/
def decodeTableWord (nbits w : Nat) : Option Instr :=
  match decode (BitVec.ofNat 32 (w % 2 ^ nbits)) with
  | .ok i => some i
  | .error _ => none

end Sys2Proof
end

