-- ==== Sys2Proof/Machine/State.lean ====
section
/-! DEFINITION. The MFE's state as plain data, the state after reset, and the small types the
machine's operations are written over: error codes, point values, a command's writes, bus accesses
and their replies, the inputs from outside, and the reasons a step can stop (there are none but the
rejection of an unmodelled instruction). -/

namespace Sys2Proof.Machine

/-- A point value: INF, or a pair of coordinates (R11). -/
inductive Point where
  | inf
  | affine (x y : Nat)
deriving DecidableEq, Repr

/-- The errors a command can raise (R95). Code 0 is "no error"; codes 5 to 15 are reserved and never
produced. -/
inductive ErrorCode where
  | illegalCmd
  | outOfRange
  | notOnCurve
  | zeroDivisor
deriving DecidableEq, Repr

/-- One write a command's rule asks for (R59): the elements of the list W. -/
inductive Write where
  /-- `R[i] <- v`. -/
  | reg (i : Reg) (v : Word256)
  /-- `PtWrite(k, q)`. -/
  | point (k : PointReg) (q : Point)
  /-- `QR <- b`. -/
  | qr (b : Bool)
deriving DecidableEq, Repr

/-- A command's pure result (R59, R97): an error, or the list W of writes to commit. -/
abbrev CommandResult := Except ErrorCode (List Write)

/-- The response of the bus to an access (R36, R38). -/
inductive Resp where
  | OKAY
  | SLVERR
deriving DecidableEq, Repr

/-- Whether an access reads, or writes a value on the 32 data lines. -/
inductive AccessKind where
  | read
  | write (v : Word)
deriving DecidableEq, Repr

/-- One bus access (R34, R36, R37, R105). -/
structure Access where
  kind : AccessKind
  /-- The byte address on the bus. -/
  addr : Nat
  /-- The size of the access in bytes. -/
  bytes : Nat
  /-- The byte lanes it enables. -/
  lanes : BitVec 4
  /-- The privilege and security attribute it carries, and the master it comes from. -/
  attr : Nat
deriving DecidableEq, Repr

/-- What the bus answers: a response, and with a read its data. -/
inductive Reply where
  | read (resp : Resp) (data : Word)
  | write (resp : Resp)
deriving DecidableEq, Repr

/-- What the outside world does to the MFE (R3, R4, R108): it issues bus accesses and drives the
reset pin `rst_n`. -/
inductive Input where
  | access (a : Access)
  | rstN (level : Bool)
deriving DecidableEq, Repr

/-- Which register a 32-bit word of the window belongs to (the map of R15). `word` counts the words
of a 256-bit register from its base. -/
inductive Slot where
  | id
  | cmd
  | status
  | errcode
  | ie
  | pinf
  | ctrl
  | curveA (word : Nat)
  | curveB (word : Nat)
  | constP (word : Nat)
  | constN (word : Nat)
  | constGx (word : Nat)
  | constGy (word : Nat)
  | operand (i : Reg) (word : Nat)
  | reserved
deriving DecidableEq, Repr

/-- Whose step comes next (R4). -/
inductive Turn where
  | host
  | engine
deriving DecidableEq, Repr

/-- The state of the MFE (10_state.md, 92_eei_decisions.md D27), of the pins and bus around it, and
of the model's own bookkeeping. -/
structure State where
  /-- CMD: the last accepted command word (R24). -/
  cmd : Word
  /-- STATUS.BUSY (R25). -/
  busy : Bool
  /-- STATUS.DONE (R25). -/
  done : Bool
  /-- STATUS.ERR (R25). -/
  err : Bool
  /-- STATUS.QR (R25). -/
  qr : Bool
  /-- ERRCODE.CODE (R26). -/
  code : BitVec 4
  /-- IE.DONE_IE (R27). -/
  doneIE : Bool
  /-- IE.ERR_IE (R27). -/
  errIE : Bool
  /-- PINF[7:0], the identity flags of P0..P7 (R18). -/
  pinf : BitVec 8
  /-- CURVE_A (R19). -/
  curveA : Word256
  /-- CURVE_B (R19). -/
  curveB : Word256
  /-- R0..R15 (R16). -/
  r : Vector Word256 16
  /-- The engine's latency in progress: turns the host side still gets before the pending command
  completes (R7, R60). -/
  wait : Nat
  /-- The level of the reset pin `rst_n`; false while reset is asserted (R108). -/
  rstN : Bool
  /-- The platform's BASE in units of 4096 bytes (R7, R34: OPEN, 4096-byte aligned). -/
  basePage : Nat
  /-- The inputs still to be served, in the order they are delivered (R47). -/
  inputs : List Input
  /-- The MFE's answer to the access served last; `none` if it gave none. -/
  reply : Option Reply
  /-- The model's own counter for free values: every draw reads it and advances it. -/
  draws : Nat
deriving DecidableEq, Repr

/-- The state after reset: every register at the value of R15 and R108, the pin released, no input
delivered and no access answered. `basePage` and `draws` are the model's own choice (log entries 4
and 5); no statement rests on either value. -/
def State.reset : State :=
  { cmd := 0
    busy := false
    done := false
    err := false
    qr := false
    code := 0
    doneIE := false
    errIE := false
    pinf := 0xFF#8
    curveA := 0
    curveB := 7
    r := Vector.replicate 16 0
    wait := 0
    rstN := true
    basePage := 0
    inputs := []
    reply := none
    draws := 0 }

/-- Faults that end a run. The spec gives the MFE none: an error ends a command, not the machine
(R97, R102), and no behaviour is stuck (R60, 93_implementation_defined.md). The type is empty; that
is safe, since a step then always answers a state. -/
inductive Fault
deriving DecidableEq, Repr

/-- Refusals that end a run. -/
inductive Refusal where
  /-- The arm of an instruction without a meaning in `exec`. No arm raises it: every command has its
  meaning. It would be safe, since nothing can be proved of a state the machine never reaches. -/
  | notModelled (mnemonic : String)
deriving DecidableEq, Repr

end Sys2Proof.Machine
end

