-- ==== Sys2Proof/Machine/Field.lean ====
section
/-! DEFINITION. Arithmetic modulo P and N over exact integers (R9, R12, R64, R71, R73). -/

namespace Sys2Proof.Machine

/-- The modulus m a field command computes under (R64). -/
def modulusOf : Modulus → Nat
  | .P => Config.P
  | .N => Config.N

/-- `z mod m` for an integer z, the unique residue in [0, m) (R9). -/
def intMod (z : Int) (m : Nat) : Nat := (z % (m : Int)).toNat

/-- `ModExp_m(a, e)` by repeated squaring, most significant bit first (R73); `fuel` bounds the
number of exponent bits. -/
def modExpLoop (m a : Nat) : Nat → Nat → Nat
  | 0, _ => 1
  | fuel + 1, e =>
    if e = 0 then 1
    else
      let h := modExpLoop m a fuel (e / 2)
      if e % 2 = 1 then h * h % m * a % m else h * h % m

/-- `ModExp_m(a, e)` (R73). An exponent e has at most log2 e + 1 bits. -/
def modExp (m a e : Nat) : Nat := modExpLoop m a (e.log2 + 1) e

/-- `inv_m(a) = a^(m-2) mod m`, the inverse by Fermat (R12). -/
def modInv (m a : Nat) : Nat := modExp m a (m - 2)

/-- `inv_R`, the x in [0, m) with x · 2^256 ≡ 1 (mod m) (R71). -/
def montInvR : Modulus → Nat
  | .P => 0xC9BD1905155383999C46C2C295F2B761BCB223FEDC24A059D838091D0868192A
  | .N => 0xD9E8890D6494EF93897F30C127CFAB5D3BBBD4567FA50C3C80FD22938097C016

/-- The Montgomery product a · b · 2^-256 mod m (R14, R71). -/
def montMul (m : Modulus) (a b : Nat) : Nat := a * b * montInvR m % modulusOf m

/-- The exponent register read as MPOW reads it: two's complement with S, unsigned without (R74). -/
def exponentOf (signed : Bool) (v : Word256) : Int := if signed then v.toInt else v.toNat

end Sys2Proof.Machine
end

