-- ==== Sys2Proof/Machine/Curve.lean ====
section
/-! DEFINITION. Arithmetic on points of y² = x³ + a·x + b over the field of P (R78): the curve
equation (R80), the group law (R83), scalar multiplication (R90), and the singular curves on which
PMUL's point is a free value (R92). -/

namespace Sys2Proof.Machine

/-- `OnCurve(Q)` for coefficients a and b (R80). -/
def onCurve (a b : Nat) : Point → Bool
  | .inf => true
  | .affine x y => intMod ((y : Int) ^ 2 - ((x : Int) ^ 3 + a * x + b)) Config.P == 0

/-- The third point of the chord or tangent with slope s through (x1, y1) and x2 (R83). -/
def chordPoint (s x1 y1 x2 : Nat) : Point :=
  let x3 := intMod ((s : Int) ^ 2 - x1 - x2) Config.P
  .affine x3 (intMod ((s : Int) * ((x1 : Int) - x3) - y1) Config.P)

/-- `PointAdd(p, q)`, the cases tried in the order R83 writes them. -/
def pointAdd (a : Nat) : Point → Point → Point
  | .inf, q => q
  | .affine x1 y1, .inf => .affine x1 y1
  | .affine x1 y1, .affine x2 y2 =>
    if x1 = x2 then
      if y1 ≠ y2 then .inf
      else if y1 = 0 then .inf
      else
        let inv := modInv Config.P (2 * y1 % Config.P)
        chordPoint (intMod ((3 * (x1 : Int) ^ 2 + a) * inv) Config.P) x1 y1 x2
    else
      let inv := modInv Config.P (intMod ((x2 : Int) - x1) Config.P)
      chordPoint (intMod (((y2 : Int) - y1) * inv) Config.P) x1 y1 x2

/-- `-Q`, the point with negated y (R88). -/
def pointNeg : Point → Point
  | .inf => .inf
  | .affine x y => .affine x (intMod ((Config.P : Int) - y) Config.P)

/-- The loop of `ScalarMul`: double-and-add, least significant bit first (R90); `fuel` bounds the
number of scalar bits. -/
def scalarLoop (a : Nat) : Nat → Nat → Point → Point → Point
  | 0, _, _, result => result
  | fuel + 1, k, current, result =>
    if k = 0 then result
    else
      scalarLoop a fuel (k / 2) (pointAdd a current current)
        (if k % 2 = 1 then pointAdd a result current else result)

/-- `ScalarMul(k, Q)` (R90). -/
def scalarMul (a k : Nat) (q : Point) : Point := scalarLoop a (k.log2 + 1) k q .inf

/-- The curve is singular: 4a³ + 27b² ≡ 0 (mod P) (R92). -/
def singular (a b : Nat) : Bool := (4 * a ^ 3 + 27 * b ^ 2) % Config.P == 0

/-- The point PMUL writes on a singular curve: INF or a pair in [0, P)², not otherwise known (R92;
log entry 2). -/
def drawnPoint (draw : Nat) : Point :=
  match Config.singularPoint draw with
  | none => .inf
  | some (x, y) => .affine (x % Config.P) (y % Config.P)

/-- The generator G (R22). -/
def generator : Point := .affine Config.Gx Config.Gy

end Sys2Proof.Machine
end

