-- ==== Sys2Proof/Machine/Flags.lean ====
section
/-! DEFINITION. The flags of the MFE (R30): the words STATUS, ERRCODE, IE and PINF read as (R42),
how a write to STATUS and IE changes them (R43), the identity flags (R18), and the interrupt line
(R100). -/

namespace Sys2Proof.Machine

/-- The number that ERRCODE.CODE holds for an error (R95). -/
def ErrorCode.toCode : ErrorCode → BitVec 4
  | .illegalCmd => 1
  | .outOfRange => 2
  | .notOnCurve => 3
  | .zeroDivisor => 4

/-- STATUS as a word: zext_32(QR ‖ ERR ‖ DONE ‖ BUSY) (R25, R42). -/
def State.statusWord (s : State) : Word :=
  (BitVec.ofBool s.qr ++ BitVec.ofBool s.err ++ BitVec.ofBool s.done ++
    BitVec.ofBool s.busy).setWidth 32

/-- ERRCODE as a word: zext_32(CODE) (R26, R42). -/
def State.errcodeWord (s : State) : Word := s.code.setWidth 32

/-- IE as a word: zext_32(ERR_IE ‖ DONE_IE) (R27, R42). -/
def State.ieWord (s : State) : Word :=
  (BitVec.ofBool s.errIE ++ BitVec.ofBool s.doneIE).setWidth 32

/-- PINF as a word: zext_32(PINF[7:0]) (R18, R42). -/
def State.pinfWord (s : State) : Word := s.pinf.setWidth 32

/-- The write-one-to-clear write of STATUS (R25, R43): bit 1 clears DONE, bit 2 clears ERR and CODE
together, no other bit does anything. It is the acknowledgement the MFE has in place of a return
from a trap (R103). -/
def State.writeStatus (s : State) (v : Word) : State :=
  { s with
    done := s.done && !v.getLsbD 1
    err := s.err && !v.getLsbD 2
    code := if v.getLsbD 2 then 0 else s.code }

/-- A write of IE: bits 1:0 (R27, R43). -/
def State.writeIE (s : State) (v : Word) : State :=
  { s with doneIE := v.getLsbD 0, errIE := v.getLsbD 1 }

/-- The identity flag PINF[k] (R10, R18). -/
def State.isInf (s : State) (k : PointReg) : Bool := s.pinf.getLsbD k.toNat

/-- PINF with flag k set to b and the other seven unchanged (R18, R82). -/
def setFlag (pinf : BitVec 8) (k : PointReg) (b : Bool) : BitVec 8 :=
  let bit := 1#8 <<< k.toNat
  if b then pinf ||| bit else pinf &&& ~~~bit

/-- The interrupt output IRQ (R100). -/
def State.irq (s : State) : Bool := (s.done && s.doneIE) || (s.err && s.errIE)

end Sys2Proof.Machine
end

