-- ==== Sys2Proof/Machine/Operands.lean ====
section
/-! DEFINITION. How a command reads its operands (R53) and the checks it makes on them, each giving
the operand or the error it raises (R65, R79, R80). -/

namespace Sys2Proof.Machine

/-- `R[i]` (R10, R16). -/
def State.getR (s : State) (i : Reg) : Word256 := s.r[i.toNat]'i.isLt

/-- `R[i]` as an integer. -/
def State.nat (s : State) (i : Reg) : Nat := (s.getR i).toNat

/-- The point register a four-bit field names: bits 2:0 (R53). -/
def pointField (f : Reg) : PointReg := f.extractLsb' 0 3

/-- The register R[2k] that holds the x-coordinate of P_k (R17). -/
def xReg (k : PointReg) : Reg := k ++ 0#1

/-- The register R[2k+1] that holds the y-coordinate of P_k (R17). -/
def yReg (k : PointReg) : Reg := k ++ 1#1

/-- `Pt(k)` (R10, R17): INF if PINF[k] = 1, whatever the coordinates. -/
def State.pt (s : State) (k : PointReg) : Point :=
  if s.isInf k then .inf else .affine (s.nat (xReg k)) (s.nat (yReg k))

/-- Reads R[i] as a field element modulo m: CheckElem (R65). -/
def State.element (s : State) (m : Modulus) (i : Reg) : Except ErrorCode Nat :=
  if modulusOf m ≤ s.nat i then .error .outOfRange else .ok (s.nat i)

/-- The value to invert must not be 0 (R75, R76). -/
def checkDivisor (v : Nat) : Except ErrorCode Unit :=
  if v = 0 then .error .zeroDivisor else .ok ()

/-- The coefficient check every point and scalar command makes first (R79). -/
def State.checkCoefficients (s : State) : Except ErrorCode Unit :=
  if Config.P ≤ s.curveA.toNat ∨ Config.P ≤ s.curveB.toNat then .error .outOfRange else .ok ()

/-- A coordinate is out of range: CheckPoint's condition (R80). -/
def pointOutOfRange : Point → Bool
  | .inf => false
  | .affine x y => Config.P ≤ x || Config.P ≤ y

/-- CheckPoint (R80). -/
def checkPoint (q : Point) : Except ErrorCode Unit :=
  if pointOutOfRange q then .error .outOfRange else .ok ()

/-- CheckCurve against the current curve (R80). -/
def State.checkCurve (s : State) (q : Point) : Except ErrorCode Unit :=
  if onCurve s.curveA.toNat s.curveB.toNat q then .ok () else .error .notOnCurve

/-- The checks of a command with one source point, in the order of R98. -/
def State.checkSource (s : State) (q : Point) : Except ErrorCode Unit := do
  s.checkCoefficients
  checkPoint q
  s.checkCurve q

/-- The checks of a command with two source points: both ranges before either curve test (R80,
R98). -/
def State.checkSources (s : State) (p q : Point) : Except ErrorCode Unit := do
  s.checkCoefficients
  checkPoint p
  checkPoint q
  s.checkCurve p
  s.checkCurve q

end Sys2Proof.Machine
end

