-- ==== Sys2Proof/Machine/Ops.lean ====
section
/-! DEFINITION. The shared operations of the machine: committing a command's writes (R59, R82),
raising an error and acknowledging it (R97, R103), issuing and completing a command (R58, R59), reset
(R108, R110), and the bus side: the window map (R15), reads (R42), writes (R43), the responses
(R36 to R40) and the inputs from outside. -/

namespace Sys2Proof.Machine

/-! ### Registers and the commit -/

/-- `R[i] <- v` (R10). -/
def State.setR (s : State) (i : Reg) (v : Word256) : State :=
  { s with r := s.r.set i.toNat v i.isLt }

/-- `PtWrite(k, q)` (R82). -/
def State.ptWrite (s : State) (k : PointReg) (q : Point) : State :=
  match q with
  | .inf =>
    { (s.setR (xReg k) 0).setR (yReg k) 0 with pinf := setFlag s.pinf k true }
  | .affine x y =>
    { (s.setR (xReg k) (BitVec.ofNat 256 x)).setR (yReg k) (BitVec.ofNat 256 y) with
      pinf := setFlag s.pinf k false }

/-- Applies one write of W (R59). -/
def State.applyWrite (s : State) : Write → State
  | .reg i v => s.setR i v
  | .point k q => s.ptWrite k q
  | .qr b => { s with qr := b }

/-- The commit: applies every write of W (R59). -/
def State.commit (s : State) (ws : List Write) : State := ws.foldl State.applyWrite s

/-! ### Errors -/

/-- TAKING AN ERROR, the MFE's only exception (R59, R97, R102): ERR is set, and CODE takes the error's
number if ERR was 0 (the first error is kept, R99). No register is saved, no mode or mask changes and
control goes nowhere. -/
def State.raiseError (s : State) (e : ErrorCode) : State :=
  { s with err := true, code := if s.err then s.code else e.toCode }

/-- THE RETURN from it is the acknowledgement: a write of 1 to STATUS bits 1 and 2 (R103). -/
def State.acknowledge (s : State) : State := s.writeStatus 6#32

/-! ### Issue and completion -/

/-- `Issue(v)` (R58), and the draw of the command's latency (R60). -/
def State.issue (s : State) (v : Word) : State :=
  { s with
    cmd := v
    done := false
    busy := true
    wait := Config.latency v s.draws
    draws := s.draws + 1 }

/-- `Complete()` once `Execute(CMD)` is known (R59). The draw counter advances, so that the next
command draws anew. -/
def State.complete (s : State) (result : CommandResult) : State :=
  let t := match result with
    | .error e => s.raiseError e
    | .ok ws => s.commit ws
  { t with busy := false, done := true, draws := s.draws + 1 }

/-- The completion step as an outcome: a next state, never a stop (R60). -/
def State.finish (s : State) (result : CommandResult) : Host.Outcome State Fault Refusal :=
  .next (s.complete result)

/-! ### Reset -/

/-- Puts every piece of the MFE's state at its reset value and discards a pending command (R108,
R110). The pins, the bus, the platform's BASE and the draw counter are not the MFE's state. -/
def State.resetRegisters (s : State) : State :=
  { State.reset with
    rstN := s.rstN, basePage := s.basePage, inputs := s.inputs, reply := s.reply, draws := s.draws }

/-! ### The register window -/

/-- Word j of a 256-bit register: bits [32j+31:32j] (R15, R44). -/
def wordOf (v : Word256) (j : Nat) : Word := v.extractLsb' (32 * j) 32

/-- The 256-bit register with word j replaced and the other 224 bits kept (R43). -/
def setWordOf (v : Word256) (j : Nat) (w : Word) : Word256 :=
  (v &&& ~~~((0xFFFFFFFF#256) <<< (32 * j))) ||| (w.setWidth 256 <<< (32 * j))

/-- The register map of R15: which register the word at an aligned offset belongs to. -/
def slotAt (off : Nat) : Slot :=
  if off = 0x000 then .id
  else if off = 0x004 then .cmd
  else if off = 0x008 then .status
  else if off = 0x00C then .errcode
  else if off = 0x010 then .ie
  else if off = 0x014 then .pinf
  else if off = 0x018 then .ctrl
  else if off < 0x040 then .reserved
  else if off < 0x060 then .curveA ((off - 0x040) / 4)
  else if off < 0x080 then .curveB ((off - 0x060) / 4)
  else if off < 0x0A0 then .constP ((off - 0x080) / 4)
  else if off < 0x0C0 then .constN ((off - 0x0A0) / 4)
  else if off < 0x0E0 then .constGx ((off - 0x0C0) / 4)
  else if off < 0x100 then .constGy ((off - 0x0E0) / 4)
  else if off < 0x300 then
    .operand (BitVec.ofNat 4 ((off - 0x100) / 32)) ((off - 0x100) % 32 / 4)
  else .reserved

/-- The word a slot reads as (R42). A read has no side effect (R46). -/
def State.readSlot (s : State) : Slot → Word
  | .id => Config.idWord
  | .cmd => s.cmd
  | .status => s.statusWord
  | .errcode => s.errcodeWord
  | .ie => s.ieWord
  | .pinf => s.pinfWord
  | .ctrl => 0
  | .curveA j => wordOf s.curveA j
  | .curveB j => wordOf s.curveB j
  | .constP j => wordOf (BitVec.ofNat 256 Config.P) j
  | .constN j => wordOf (BitVec.ofNat 256 Config.N) j
  | .constGx j => wordOf (BitVec.ofNat 256 Config.Gx) j
  | .constGy j => wordOf (BitVec.ofNat 256 Config.Gy) j
  | .operand i j => wordOf (s.getR i) j
  | .reserved => 0

/-- A write to the slot is refused while BUSY = 1 (R40). -/
def Slot.lockedWhileBusy : Slot → Bool
  | .cmd | .pinf | .curveA _ | .curveB _ | .operand _ _ => true
  | .id | .status | .errcode | .ie | .ctrl | .constP _ | .constN _ | .constGx _ | .constGy _
  | .reserved => false

/-- What an accepted write does to a slot (R39, R43). -/
def State.writeSlot (s : State) (slot : Slot) (v : Word) : State :=
  match slot with
  | .cmd => s.issue v
  | .status => s.writeStatus v
  | .ie => s.writeIE v
  | .pinf => { s with pinf := v.setWidth 8 }
  | .ctrl => if v.getLsbD 0 then s.resetRegisters else s
  | .curveA j => { s with curveA := setWordOf s.curveA j v }
  | .curveB j => { s with curveB := setWordOf s.curveB j v }
  | .operand i j => s.setR i (setWordOf (s.getR i) j v)
  | .id | .errcode | .constP _ | .constN _ | .constGx _ | .constGy _ | .reserved => s

/-- The one form of access the MFE serves: 32 bits, all four lanes, at a multiple of 4 (R36, R37). -/
def Access.isWordAt (a : Access) (off : Nat) : Bool :=
  a.bytes == 4 && a.lanes == 0xF#4 && off % 4 == 0

/-- The reply of a refused access: SLVERR, and data 0 for a read (R38). -/
def refusedReply : AccessKind → Reply
  | .read => .read .SLVERR 0
  | .write _ => .write .SLVERR

/-- The accesses the MFE refuses at an offset of its window (R37, R40). -/
def State.refuses (s : State) (a : Access) (off : Nat) : Bool :=
  !a.isWordAt off ||
    match a.kind with
    | .read => false
    | .write _ => s.busy && (slotAt off).lockedWhileBusy

/-- `MemRead` and `MemWrite` at an offset of the window (R38, R42, R43). The attribute of the access
is not looked at (R105). -/
def State.serveAt (s : State) (a : Access) (off : Nat) : State :=
  if s.refuses a off then { s with reply := some (refusedReply a.kind) }
  else
    match a.kind with
    | .read => { s with reply := some (.read .OKAY (s.readSlot (slotAt off))) }
    | .write v => { s.writeSlot (slotAt off) v with reply := some (.write .OKAY) }

/-- BASE, 4096-byte aligned (R7, R34). -/
def State.base (s : State) : Nat := s.basePage * Config.windowBytes

/-- The offset of an address in the window; `none` outside it (R15, R34). -/
def State.offsetOf? (s : State) (addr : Nat) : Option Nat :=
  if s.base ≤ addr ∧ addr < s.base + Config.windowBytes then some (addr - s.base) else none

/-- The reply to an access while `rst_n` is asserted: a free value (log entry 3). -/
def inResetReply (draw : Nat) (kind : AccessKind) : Reply :=
  let resp := if (Config.replyInReset draw).1 then Resp.SLVERR else Resp.OKAY
  match kind with
  | .read => .read resp (Config.replyInReset draw).2
  | .write _ => .write resp

/-- One access on the bus (R34): outside the window it does not reach the MFE, which does not answer
it; while reset is asserted it changes no register (R108). -/
def State.serveAccess (s : State) (a : Access) : State :=
  match s.offsetOf? a.addr with
  | none => { s with reply := none }
  | some off =>
    if s.rstN then s.serveAt a off
    else { s with reply := some (inResetReply s.draws a.kind), draws := s.draws + 1 }

/-- The reset pin takes a level; while it is low every register has its reset value (R108). -/
def State.driveReset (s : State) (level : Bool) : State :=
  if level then { s with rstN := true } else { s.resetRegisters with rstN := false }

/-- One input from outside (R3, R108). -/
def State.receive (s : State) : Input → State
  | .access a => s.serveAccess a
  | .rstN level => s.driveReset level

/-- What passes in the MFE on a turn of the host side: nothing while idle (R118), a turn of the
latency while busy (R60), and the reset values while reset is asserted (R108). -/
def State.pass (s : State) : State :=
  if s.rstN then { s with wait := s.wait - 1 } else s.resetRegisters

/-- A turn of the host side: the next input is served, if one is waiting (R47). -/
def State.hostTurn (s : State) : State :=
  match s.inputs with
  | [] => s.pass
  | i :: rest => ({ s.pass with inputs := rest }).receive i

/-- Whose step comes next: the engine's completion step is enabled exactly when BUSY = 1 (R59) and
falls due when the latency has passed; until then, and while idle, the host side has the turn. -/
def State.turn (s : State) : Turn :=
  if s.rstN && s.busy && s.wait == 0 then .engine else .host

end Sys2Proof.Machine
end

