-- ==== Sys2Proof/Machine/FieldArith.lean ====
section
/-! DEFINITION. The field arithmetic commands MADD, MSUB, MMUL, MONT and MRED (40_field_arith.md):
for each its pure result, and its meaning, the completion step with that result (R59). -/

namespace Sys2Proof.Machine

/-- The one write of a field command (R66). -/
def writeReg (rd : Reg) (v : Nat) : CommandResult := .ok [.reg rd (BitVec.ofNat 256 v)]

/-- MADD (R68). -/
def State.maddResult (s : State) (m : Modulus) (rd rs1 rs2 : Reg) : CommandResult := do
  let a ← s.element m rs1
  let b ← s.element m rs2
  writeReg rd ((a + b) % modulusOf m)

/-- MSUB (R69). -/
def State.msubResult (s : State) (m : Modulus) (rd rs1 rs2 : Reg) : CommandResult := do
  let a ← s.element m rs1
  let b ← s.element m rs2
  writeReg rd (intMod ((a : Int) - b) (modulusOf m))

/-- MMUL (R70). -/
def State.mmulResult (s : State) (m : Modulus) (rd rs1 rs2 : Reg) : CommandResult := do
  let a ← s.element m rs1
  let b ← s.element m rs2
  writeReg rd (a * b % modulusOf m)

/-- MONT (R71). -/
def State.montResult (s : State) (m : Modulus) (rd rs1 rs2 : Reg) : CommandResult := do
  let a ← s.element m rs1
  let b ← s.element m rs2
  writeReg rd (montMul m a b)

/-- MRED (R72): the operand is not range-checked. -/
def State.mredResult (s : State) (m : Modulus) (rd rs1 : Reg) : CommandResult :=
  writeReg rd (s.nat rs1 % modulusOf m)

/-- MADD.<m> rd, rs1, rs2 (R68). -/
def execMadd (m : Modulus) (rd rs1 rs2 : Reg) (s : State) : Host.Outcome State Fault Refusal :=
  s.finish (s.maddResult m rd rs1 rs2)

/-- MSUB.<m> rd, rs1, rs2 (R69). -/
def execMsub (m : Modulus) (rd rs1 rs2 : Reg) (s : State) : Host.Outcome State Fault Refusal :=
  s.finish (s.msubResult m rd rs1 rs2)

/-- MMUL.<m> rd, rs1, rs2 (R70). -/
def execMmul (m : Modulus) (rd rs1 rs2 : Reg) (s : State) : Host.Outcome State Fault Refusal :=
  s.finish (s.mmulResult m rd rs1 rs2)

/-- MONT.<m> rd, rs1, rs2 (R71). -/
def execMont (m : Modulus) (rd rs1 rs2 : Reg) (s : State) : Host.Outcome State Fault Refusal :=
  s.finish (s.montResult m rd rs1 rs2)

/-- MRED.<m> rd, rs1 (R72). -/
def execMred (m : Modulus) (rd rs1 : Reg) (s : State) : Host.Outcome State Fault Refusal :=
  s.finish (s.mredResult m rd rs1)

end Sys2Proof.Machine
end

