-- ==== Sys2Proof/Machine/FieldExp.lean ====
section
/-! DEFINITION. The field exponentiation commands MPOW, MINV, MDIV and MSQRT (41_field_exp.md). -/

namespace Sys2Proof.Machine

/-- MPOW (R74): the exponent register is not range-checked, and every exponent is normalised modulo
m - 1 first. -/
def State.mpowResult (s : State) (m : Modulus) (signed : Bool) (rd rs1 rs2 : Reg) :
    CommandResult := do
  let a ← s.element m rs1
  let e := intMod (exponentOf signed (s.getR rs2)) (modulusOf m - 1)
  writeReg rd (modExp (modulusOf m) a e)

/-- MINV (R75). -/
def State.minvResult (s : State) (m : Modulus) (rd rs1 : Reg) : CommandResult := do
  let a ← s.element m rs1
  checkDivisor a
  writeReg rd (modInv (modulusOf m) a)

/-- MDIV (R76). -/
def State.mdivResult (s : State) (m : Modulus) (rd rs1 rs2 : Reg) : CommandResult := do
  let a ← s.element m rs1
  let b ← s.element m rs2
  checkDivisor b
  writeReg rd (a * modInv (modulusOf m) b % modulusOf m)

/-- MSQRT (R77): the root is written whether or not it is one, and QR says which. -/
def State.msqrtResult (s : State) (rd rs1 : Reg) : CommandResult := do
  let a ← s.element .P rs1
  let root := modExp Config.P a ((Config.P + 1) / 4)
  pure [.reg rd (BitVec.ofNat 256 root), .qr (root * root % Config.P == a)]

/-- MPOW.<m>[.S] rd, rs1, rs2 (R74). -/
def execMpow (m : Modulus) (signed : Bool) (rd rs1 rs2 : Reg) (s : State) :
    Host.Outcome State Fault Refusal :=
  s.finish (s.mpowResult m signed rd rs1 rs2)

/-- MINV.<m> rd, rs1 (R75). -/
def execMinv (m : Modulus) (rd rs1 : Reg) (s : State) : Host.Outcome State Fault Refusal :=
  s.finish (s.minvResult m rd rs1)

/-- MDIV.<m> rd, rs1, rs2 (R76). -/
def execMdiv (m : Modulus) (rd rs1 rs2 : Reg) (s : State) : Host.Outcome State Fault Refusal :=
  s.finish (s.mdivResult m rd rs1 rs2)

/-- MSQRT.P rd, rs1 (R77). -/
def execMsqrt (rd rs1 : Reg) (s : State) : Host.Outcome State Fault Refusal :=
  s.finish (s.msqrtResult rd rs1)

end Sys2Proof.Machine
end

