-- ==== Sys2Proof/Machine/PointCmd.lean ====
section
/-! DEFINITION. The point commands PADD, PDBL, PNEG and PCHK (42_point.md). A point-register field
names its bits 2:0 (R53). -/

namespace Sys2Proof.Machine

/-- The one write of a point or scalar command (R82). -/
def writePoint (pd : Reg) (q : Point) : CommandResult := .ok [.point (pointField pd) q]

/-- PADD (R86). -/
def State.paddResult (s : State) (pd ps1 ps2 : Reg) : CommandResult := do
  let p := s.pt (pointField ps1)
  let q := s.pt (pointField ps2)
  s.checkSources p q
  writePoint pd (pointAdd s.curveA.toNat p q)

/-- PDBL (R87). -/
def State.pdblResult (s : State) (pd ps1 : Reg) : CommandResult := do
  let p := s.pt (pointField ps1)
  s.checkSource p
  writePoint pd (pointAdd s.curveA.toNat p p)

/-- PNEG (R88). -/
def State.pnegResult (s : State) (pd ps1 : Reg) : CommandResult := do
  let p := s.pt (pointField ps1)
  s.checkSource p
  writePoint pd (pointNeg p)

/-- PCHK (R89): the checks, and no write. -/
def State.pchkResult (s : State) (ps1 : Reg) : CommandResult := do
  s.checkSource (s.pt (pointField ps1))
  pure []

/-- PADD pd, ps1, ps2 (R86). -/
def execPadd (pd ps1 ps2 : Reg) (s : State) : Host.Outcome State Fault Refusal :=
  s.finish (s.paddResult pd ps1 ps2)

/-- PDBL pd, ps1 (R87). -/
def execPdbl (pd ps1 : Reg) (s : State) : Host.Outcome State Fault Refusal :=
  s.finish (s.pdblResult pd ps1)

/-- PNEG pd, ps1 (R88). -/
def execPneg (pd ps1 : Reg) (s : State) : Host.Outcome State Fault Refusal :=
  s.finish (s.pnegResult pd ps1)

/-- PCHK ps1 (R89). -/
def execPchk (ps1 : Reg) (s : State) : Host.Outcome State Fault Refusal :=
  s.finish (s.pchkResult ps1)

end Sys2Proof.Machine
end

