-- ==== Sys2Proof/Machine/ScalarCmd.lean ====
section
/-! DEFINITION. The scalar command PMUL in its two forms (43_scalar_mul.md). -/

namespace Sys2Proof.Machine

/-- The scalar PMUL uses: R[rk], reduced modulo N first with the option RN (R91). -/
def State.scalarOf (s : State) (rn : Bool) (rk : Reg) : Nat :=
  if rn then s.nat rk % Config.N else s.nat rk

/-- The point PMUL writes: `ScalarMul(k, Q)`, and on a singular curve a free value (R91, R92; log
entry 2). -/
def State.multiple (s : State) (k : Nat) (q : Point) : Point :=
  if singular s.curveA.toNat s.curveB.toNat then drawnPoint s.draws
  else scalarMul s.curveA.toNat k q

/-- PMUL with source point Q (R91). -/
def State.pmulResult (s : State) (rn : Bool) (pd : Reg) (q : Point) (rk : Reg) :
    CommandResult := do
  s.checkSource q
  writePoint pd (s.multiple (s.scalarOf rn rk) q)

/-- PMUL[.RN] pd, ps1, rk (R91). -/
def execPmul (rn : Bool) (pd ps1 rk : Reg) (s : State) : Host.Outcome State Fault Refusal :=
  s.finish (s.pmulResult rn pd (s.pt (pointField ps1)) rk)

/-- PMUL[.RN] pd, G, rk (R91): the source point is the generator, checked like any other. -/
def execPmulG (rn : Bool) (pd rk : Reg) (s : State) : Host.Outcome State Fault Refusal :=
  s.finish (s.pmulResult rn pd generator rk)

end Sys2Proof.Machine
end

