-- ==== Sys2Proof/Machine/Dispatch.lean ====
section
/-! DEFINITION. The meaning of each command: one arm per constructor of `Instr`, one direct call. -/

namespace Sys2Proof.Machine

/-- The rule of a command's opcode, as the completion step runs it (R59). -/
def exec (i : Instr) (s : State) : Host.Outcome State Fault Refusal :=
  match i with
  | .madd m rd rs1 rs2 => Sys2Proof.Machine.execMadd m rd rs1 rs2 s
  | .msub m rd rs1 rs2 => Sys2Proof.Machine.execMsub m rd rs1 rs2 s
  | .mmul m rd rs1 rs2 => Sys2Proof.Machine.execMmul m rd rs1 rs2 s
  | .mont m rd rs1 rs2 => Sys2Proof.Machine.execMont m rd rs1 rs2 s
  | .mred m rd rs1 => Sys2Proof.Machine.execMred m rd rs1 s
  | .mpow m signed rd rs1 rs2 => Sys2Proof.Machine.execMpow m signed rd rs1 rs2 s
  | .minv m rd rs1 => Sys2Proof.Machine.execMinv m rd rs1 s
  | .mdiv m rd rs1 rs2 => Sys2Proof.Machine.execMdiv m rd rs1 rs2 s
  | .msqrt rd rs1 => Sys2Proof.Machine.execMsqrt rd rs1 s
  | .padd pd ps1 ps2 => Sys2Proof.Machine.execPadd pd ps1 ps2 s
  | .pdbl pd ps1 => Sys2Proof.Machine.execPdbl pd ps1 s
  | .pneg pd ps1 => Sys2Proof.Machine.execPneg pd ps1 s
  | .pchk ps1 => Sys2Proof.Machine.execPchk ps1 s
  | .pmul rn pd ps1 rk => Sys2Proof.Machine.execPmul rn pd ps1 rk s
  | .pmulG rn pd rk => Sys2Proof.Machine.execPmulG rn pd rk s

end Sys2Proof.Machine
end

