-- ==== Sys2Proof/Machine/Step.lean ====
section
/-! DEFINITION. One step of the machine (R4, R47, R59): the engine's completion step when it falls
due, else a turn of the host side. -/

namespace Sys2Proof.Machine

/-- One step. On the engine's turn the pending word CMD is decoded and its command completes; a word
that is no command completes with ILLEGAL_CMD (R57, R59). On the host side's turn the next bus
access or pin change is served, if there is one; with none, an idle MFE stays as it is (R118). -/
def step (s : State) : Host.Outcome State Fault Refusal :=
  match s.turn with
  | .host => .next s.hostTurn
  | .engine =>
    match decode s.cmd with
    | .ok i => exec i s
    | .error _ => s.finish (.error .illegalCmd)

/-- The state in which a command word of the opcode table has been accepted and falls due now (log
entry 6): CMD holds it, BUSY is 1 and DONE 0 as `Issue` leaves them (R58), the latency has passed and
reset is not asserted. Nothing else changes. -/
def State.withFetchWord (s : State) (nbits w : Nat) : State :=
  { s with
    cmd := BitVec.ofNat 32 (w % 2 ^ nbits)
    busy := true
    done := false
    wait := 0
    rstN := true }

end Sys2Proof.Machine
end

