-- ==== Sys2Proof/Machine/Assembler.lean ====
section
/-! DEFINITION. The assembler of MFE-CS1 (R61, R62): how a command is written as a line of text, and
which command a line of text assembles to. A line is a list of characters; letters are taken in
either case, and operands stand apart by blanks or commas. -/

namespace Sys2Proof.Machine

/-! ### Writing a line -/

/-- A line's decimal digits for 0..15. -/
def digits (n : Nat) : List Char :=
  if n < 10 then [Char.ofNat (48 + n)] else ['1', Char.ofNat (48 + (n - 10))]

/-- The name of an operand register, r0..r15. -/
def regName (i : Reg) : List Char := 'r' :: digits i.toNat

/-- The name of the point register a field names, p0..p7. -/
def pointName (f : Reg) : List Char := 'p' :: digits (f.toNat % 8)

/-- `.P` or `.N`. -/
def modulusSuffix : Modulus → List Char
  | .P => ['.', 'P']
  | .N => ['.', 'N']

/-- A suffix that is written only when its option is set. -/
def optionSuffix (b : Bool) (suffix : List Char) : List Char := if b then suffix else []

/-- The operands after a mnemonic: one blank before the first, a comma and a blank before the
others. -/
def operands : List (List Char) → List Char
  | [] => []
  | [a] => ' ' :: a
  | a :: rest => ' ' :: (a ++ ',' :: operands rest)

/-- The line of a command (R61). -/
def asmLine : Instr → List Char
  | .madd m rd rs1 rs2 =>
    ['M', 'A', 'D', 'D'] ++ modulusSuffix m ++ operands [regName rd, regName rs1, regName rs2]
  | .msub m rd rs1 rs2 =>
    ['M', 'S', 'U', 'B'] ++ modulusSuffix m ++ operands [regName rd, regName rs1, regName rs2]
  | .mmul m rd rs1 rs2 =>
    ['M', 'M', 'U', 'L'] ++ modulusSuffix m ++ operands [regName rd, regName rs1, regName rs2]
  | .mont m rd rs1 rs2 =>
    ['M', 'O', 'N', 'T'] ++ modulusSuffix m ++ operands [regName rd, regName rs1, regName rs2]
  | .mred m rd rs1 =>
    ['M', 'R', 'E', 'D'] ++ modulusSuffix m ++ operands [regName rd, regName rs1]
  | .mpow m s rd rs1 rs2 =>
    ['M', 'P', 'O', 'W'] ++ modulusSuffix m ++ optionSuffix s ['.', 'S'] ++
      operands [regName rd, regName rs1, regName rs2]
  | .minv m rd rs1 =>
    ['M', 'I', 'N', 'V'] ++ modulusSuffix m ++ operands [regName rd, regName rs1]
  | .mdiv m rd rs1 rs2 =>
    ['M', 'D', 'I', 'V'] ++ modulusSuffix m ++ operands [regName rd, regName rs1, regName rs2]
  | .msqrt rd rs1 => ['M', 'S', 'Q', 'R', 'T', '.', 'P'] ++ operands [regName rd, regName rs1]
  | .padd pd ps1 ps2 =>
    ['P', 'A', 'D', 'D'] ++ operands [pointName pd, pointName ps1, pointName ps2]
  | .pdbl pd ps1 => ['P', 'D', 'B', 'L'] ++ operands [pointName pd, pointName ps1]
  | .pneg pd ps1 => ['P', 'N', 'E', 'G'] ++ operands [pointName pd, pointName ps1]
  | .pchk ps1 => ['P', 'C', 'H', 'K'] ++ operands [pointName ps1]
  | .pmul rn pd ps1 rk =>
    ['P', 'M', 'U', 'L'] ++ optionSuffix rn ['.', 'R', 'N'] ++
      operands [pointName pd, pointName ps1, regName rk]
  | .pmulG rn pd rk =>
    ['P', 'M', 'U', 'L'] ++ optionSuffix rn ['.', 'R', 'N'] ++
      operands [pointName pd, ['G'], regName rk]

/-! ### Reading a line -/

/-- The maximal runs of characters that are no separator; `word` is the run read so far. -/
def splitRuns (isSep : Char → Bool) : List Char → (word : List Char) → List (List Char)
  | [], word => if word = [] then [] else [word.reverse]
  | c :: rest, word =>
    if isSep c then
      if word = [] then splitRuns isSep rest [] else word.reverse :: splitRuns isSep rest []
    else splitRuns isSep rest (c :: word)

/-- The words of a line: the mnemonic with its suffixes, then the operands. DESIGN CHOICE (log entry
8): blanks and commas separate alike, in any number; R61 leaves the spacing open. -/
def lineWords (line : List Char) : List (List Char) :=
  splitRuns (fun c => c = ' ' || c = ',') line []

/-- The parts of a mnemonic between its dots, empty ones included, so that a stray dot is no form of
R61; `part` is the part read so far. -/
def splitAtDots : List Char → (part : List Char) → List (List Char)
  | [], part => [part.reverse]
  | c :: rest, part =>
    if c = '.' then part.reverse :: splitAtDots rest [] else splitAtDots rest (c :: part)

/-- A decimal number of one digit, or of two that starts with 1, below a bound. -/
def readNumber (bound : Nat) : List Char → Option Nat
  | [d] => below (d.toNat - 48) (48 ≤ d.toNat ∧ d.toNat ≤ 57)
  | ['1', d] => below (10 + (d.toNat - 48)) (48 ≤ d.toNat ∧ d.toNat ≤ 57)
  | _ => none
where
  /-- The number, if its digits are digits and it lies below the bound. -/
  below (n : Nat) (isDigit : Bool) : Option Nat := if isDigit ∧ n < bound then some n else none

/-- An operand register in capitals, R0..R15. -/
def readReg : List Char → Option Reg
  | 'R' :: ds => (readNumber 16 ds).map (BitVec.ofNat 4)
  | _ => none

/-- A point register in capitals, P0..P7. -/
def readPoint : List Char → Option Reg
  | 'P' :: ds => (readNumber 8 ds).map (BitVec.ofNat 4)
  | _ => none

/-- The suffix that names a modulus. -/
def readModulus : List Char → Option Modulus
  | ['P'] => some .P
  | ['N'] => some .N
  | _ => none

/-- `rd, rs1` and the command built from them. -/
def withRegs2 (f : Reg → Reg → Instr) : List (List Char) → Option Instr
  | [a, b] => do return f (← readReg a) (← readReg b)
  | _ => none

/-- `rd, rs1, rs2` and the command built from them. -/
def withRegs3 (f : Reg → Reg → Reg → Instr) : List (List Char) → Option Instr
  | [a, b, c] => do return f (← readReg a) (← readReg b) (← readReg c)
  | _ => none

/-- `pd, ps1` and the command built from them. -/
def withPoints2 (f : Reg → Reg → Instr) : List (List Char) → Option Instr
  | [a, b] => do return f (← readPoint a) (← readPoint b)
  | _ => none

/-- PMUL's operands: `pd, ps1, rk` or `pd, G, rk` (R61). -/
def withScalar (rn : Bool) : List (List Char) → Option Instr
  | [a, ['G'], c] => do return .pmulG rn (← readPoint a) (← readReg c)
  | [a, b, c] => do return .pmul rn (← readPoint a) (← readPoint b) (← readReg c)
  | _ => none

/-- A field command without options, by its mnemonic (R61), and the pseudo-command MSQR (R62). -/
def fieldCommand (m : Modulus) (ops : List (List Char)) : List Char → Option Instr
  | ['M', 'A', 'D', 'D'] => withRegs3 (.madd m) ops
  | ['M', 'S', 'U', 'B'] => withRegs3 (.msub m) ops
  | ['M', 'M', 'U', 'L'] => withRegs3 (.mmul m) ops
  | ['M', 'O', 'N', 'T'] => withRegs3 (.mont m) ops
  | ['M', 'R', 'E', 'D'] => withRegs2 (.mred m) ops
  | ['M', 'P', 'O', 'W'] => withRegs3 (.mpow m false) ops
  | ['M', 'I', 'N', 'V'] => withRegs2 (.minv m) ops
  | ['M', 'D', 'I', 'V'] => withRegs3 (.mdiv m) ops
  | ['M', 'S', 'Q', 'R', 'T'] => if m = .P then withRegs2 .msqrt ops else none
  | ['M', 'S', 'Q', 'R'] => withRegs2 (msqr m) ops
  | _ => none

/-- A point or scalar command without options, by its mnemonic (R61), and the pseudo-command PMULG
(R62). -/
def pointCommand (ops : List (List Char)) : List Char → Option Instr
  | ['P', 'A', 'D', 'D'] =>
    match ops with
    | [a, b, c] => do return .padd (← readPoint a) (← readPoint b) (← readPoint c)
    | _ => none
  | ['P', 'D', 'B', 'L'] => withPoints2 .pdbl ops
  | ['P', 'N', 'E', 'G'] => withPoints2 .pneg ops
  | ['P', 'C', 'H', 'K'] =>
    match ops with
    | [a] => do return .pchk (← readPoint a)
    | _ => none
  | ['P', 'M', 'U', 'L'] => withScalar false ops
  | ['P', 'M', 'U', 'L', 'G'] => pmulg false ops
  | _ => none
where
  /-- `PMULG[.RN] pd, rk` (R62). -/
  pmulg (rn : Bool) : List (List Char) → Option Instr
    | [a, c] => do return pmulgPseudo rn (← readPoint a) (← readReg c)
    | _ => none

/-- The command of a line's words: the mnemonic split at its dots, then the operands. -/
def commandOf (parts : List (List Char)) (ops : List (List Char)) : Option Instr :=
  match parts with
  | [name] => pointCommand ops name
  | [['P', 'M', 'U', 'L'], ['R', 'N']] => withScalar true ops
  | [['P', 'M', 'U', 'L', 'G'], ['R', 'N']] => pointCommand.pmulg true ops
  | [['M', 'P', 'O', 'W'], suffix, ['S']] => do withRegs3 (.mpow (← readModulus suffix) true) ops
  | [name, suffix] => do fieldCommand (← readModulus suffix) ops name
  | _ => none

/-- The command a line assembles to; `none` if it is no line of R61 or R62 in the model's reading.
DESIGN CHOICE (log entry 8): where R61 is silent the model decides which lines are read. Blanks and
commas separate operands alike, in any number and also at the ends of a line, and a register number
has no leading zero. A mnemonic has exactly the dots and suffixes R61 gives it: an empty part between
dots, as in `PADD.` or `MADD..P`, makes the line no line. -/
def assembleLine (line : List Char) : Option Instr :=
  match lineWords (line.map Char.toUpper) with
  | [] => none
  | head :: ops => commandOf (splitAtDots head []) ops

/-- The command word a line assembles to (R61: exactly one word). -/
def assemble (line : List Char) : Option Word := (assembleLine line).map encode

end Sys2Proof.Machine
end

