-- ==== Sys2Proof/Machine/HostOps.lean ====
section
/-! DEFINITION. The host's side of the bus in the forms host programs use
(92_eei_decisions.md D37): one word access, the eight accesses of a 256-bit register, and the byte
orders the host converts between (R44). -/

namespace Sys2Proof.Machine

/-- A 32-bit read at a byte address, all four lanes enabled. -/
def readWordAccess (addr : Nat) : Access :=
  { kind := .read, addr := addr, bytes := 4, lanes := 0xF, attr := 0 }

/-- A 32-bit write at a byte address, all four lanes enabled. -/
def writeWordAccess (addr : Nat) (v : Word) : Access :=
  { kind := .write v, addr := addr, bytes := 4, lanes := 0xF, attr := 0 }

/-- `W256`: eight word writes, word j at addr + 4j, from word `first` on (R44, R114). -/
def write256From (addr : Nat) (v : Word256) : (count first : Nat) → List Input
  | 0, _ => []
  | count + 1, first =>
    .access (writeWordAccess (addr + 4 * first) (wordOf v first)) ::
      write256From addr v count (first + 1)

/-- `W256 addr, v` (92_eei_decisions.md D37). -/
def write256 (addr : Nat) (v : Word256) : List Input := write256From addr v 8 0

/-- The offset of R[i] in the window (R15). -/
def operandOffset (i : Reg) : Nat := 0x100 + 0x20 * i.toNat

/-- The integer a list of bytes stands for, most significant byte first: the source's external
formats (R44). -/
def bigEndian (bytes : List (BitVec 8)) : Nat :=
  bytes.foldl (fun acc b => acc * 256 + b.toNat) 0

/-- The integer a list of bytes stands for, least significant byte first: the image a host's
little-endian stores leave in its own memory (R44). -/
def littleEndian : List (BitVec 8) → Nat
  | [] => 0
  | b :: rest => b.toNat + 256 * littleEndian rest

/-- Byte lane b of a bus word: bits [8b+7:8b] (R44). -/
def laneOf (w : Word) (b : Nat) : BitVec 8 := w.extractLsb' (8 * b) 8

/-- The byte at a byte offset of a 256-bit register, least significant byte at the lowest (R44). -/
def byteOf (v : Word256) (b : Nat) : BitVec 8 := laneOf (wordOf v (b / 4)) (b % 4)

end Sys2Proof.Machine
end

