-- ==== Sys2Proof/Safety.lean ====
section
/-! DEFINITION. The terms in which claims about the machine are stated: what a safe step is, the
invariant of the state, and what a completion step or a host access leaves unchanged. -/

namespace Sys2Proof.Machine

/-- A safe outcome: the machine goes on. -/
def Answers (o : Host.Outcome State Fault Refusal) : Prop := ∃ t, o = .next t

/-- The invariant of the state. -/
structure Inv (s : State) : Prop where
  /-- A pending command has DONE = 0: issue clears it and only a completion sets it (R30). -/
  busy_not_done : s.busy = true → s.done = false
  /-- CODE is 0 exactly when ERR is 0 (R26, R99). -/
  err_iff_code : s.err = false ↔ s.code = 0
  /-- CODE is one of the codes 0 to 4 (R95; 93_implementation_defined.md V2). -/
  code_le : s.code.toNat ≤ 4
  /-- An idle engine has no latency left over (R118). -/
  idle_wait : s.busy = false → s.wait = 0
  /-- While reset is asserted every register has its reset value (R108). -/
  held_in_reset : s.rstN = false → s = s.resetRegisters

/-- What every completion step does and leaves alone, whatever the command (R59): BUSY falls, DONE
rises; CMD, IE, the coefficients, the pins, the bus and BASE are unchanged. -/
structure Completed (s t : State) : Prop where
  busy : t.busy = false
  done : t.done = true
  cmd : t.cmd = s.cmd
  doneIE : t.doneIE = s.doneIE
  errIE : t.errIE = s.errIE
  curveA : t.curveA = s.curveA
  curveB : t.curveB = s.curveB
  rstN : t.rstN = s.rstN
  basePage : t.basePage = s.basePage
  inputs : t.inputs = s.inputs
  reply : t.reply = s.reply

/-- A completion without an error: ERR and CODE are unchanged too (R99). -/
structure Succeeded (s t : State) : Prop extends Completed s t where
  err : t.err = s.err
  code : t.code = s.code

/-- A completion that raised the error `e`: ERR is set, CODE keeps the first error, and no operand
register, no PINF bit and not QR changes (R97, R99). -/
structure Failed (e : ErrorCode) (s t : State) : Prop extends Completed s t where
  err : t.err = true
  code : t.code = if s.err then s.code else e.toCode
  r : t.r = s.r
  pinf : t.pinf = s.pinf
  qr : t.qr = s.qr

/-- A successful field command with destination rd: nothing else is written, QR apart (R66). -/
structure FieldWrote (rd : Reg) (s t : State) : Prop extends Succeeded s t where
  others : ∀ i, i ≠ rd → t.getR i = s.getR i
  pinf : t.pinf = s.pinf

/-- A successful point or scalar command that wrote the point q to point register k (R82): the pair
of operand registers and the flag hold it, and the other fourteen registers, the other seven flags
and QR are unchanged. -/
structure PointWrote (k : PointReg) (q : Point) (s t : State) : Prop extends Succeeded s t where
  flag : t.isInf k = decide (q = .inf)
  x : t.nat (xReg k) = match q with | .inf => 0 | .affine x _ => x
  y : t.nat (yReg k) = match q with | .inf => 0 | .affine _ y => y
  others : ∀ i, i ≠ xReg k → i ≠ yReg k → t.getR i = s.getR i
  flags : ∀ j, j ≠ k → t.isInf j = s.isInf j
  qr : t.qr = s.qr

/-- Both coefficients are below P (R79). -/
def CoefficientsInRange (s : State) : Prop := s.curveA.toNat < Config.P ∧ s.curveB.toNat < Config.P

/-- A point is INF or a pair in [0, P)² (R11). -/
def Point.InRange : Point → Prop
  | .inf => True
  | .affine x y => x < Config.P ∧ y < Config.P

/-- A source point passes every check of a point command in state s (R79, R80). -/
structure ValidSource (s : State) (q : Point) : Prop where
  inRange : q.InRange
  onCurve : onCurve s.curveA.toNat s.curveB.toNat q = true

/-- The access `a` is next on the bus, in the window at offset `off`, and it is the host side's
turn; `rest` are the inputs after it. -/
structure Presented (s : State) (a : Access) (off : Nat) (rest : List Input) : Prop where
  released : s.rstN = true
  turn : s.turn = .host
  next : s.inputs = .access a :: rest
  addr : a.addr = s.base + off
  inWindow : off < Config.windowBytes

/-- Every register of the MFE is as before; the pins, the bus and the latency are not registers. -/
structure SameRegisters (s t : State) : Prop where
  cmd : t.cmd = s.cmd
  busy : t.busy = s.busy
  done : t.done = s.done
  err : t.err = s.err
  qr : t.qr = s.qr
  code : t.code = s.code
  doneIE : t.doneIE = s.doneIE
  errIE : t.errIE = s.errIE
  pinf : t.pinf = s.pinf
  curveA : t.curveA = s.curveA
  curveB : t.curveB = s.curveB
  r : t.r = s.r

/-- Every register has its reset value (R15, R108). -/
structure AtReset (t : State) : Prop where
  cmd : t.cmd = 0
  busy : t.busy = false
  done : t.done = false
  err : t.err = false
  qr : t.qr = false
  code : t.code = 0
  doneIE : t.doneIE = false
  errIE : t.errIE = false
  pinf : t.pinf = 0xFF#8
  curveA : t.curveA = 0
  curveB : t.curveB = 7
  r : ∀ i, t.getR i = 0

/-- The access is 32 bits wide on all four lanes at a multiple of 4 (R36, R37), put as a
proposition. -/
def Access.Aligned32 (a : Access) (off : Nat) : Prop := a.bytes = 4 ∧ a.lanes = 0xF#4 ∧ off % 4 = 0

/-- The offsets whose writes are refused while BUSY = 1 (R40): CMD, PINF, CURVE_A, CURVE_B and
R0..R15. -/
def LockedOffset (off : Nat) : Prop :=
  off = 0x004 ∨ off = 0x014 ∨ (0x040 ≤ off ∧ off < 0x080) ∨ (0x100 ≤ off ∧ off < 0x300)

/-- The word of a command is the one with these fields and zeros in bits 11:9 and 31:24 (R52, R55). -/
def Encodes (i : Instr) (opc : BitVec 6) (m f0 f1 : Bool) (rd rs1 rs2 : Reg) : Prop :=
  encode i =
    CmdFields.toWord { opc, m, f0, f1, rsvLow := 0, rd, rs1, rs2, rsvHigh := 0 }

/-- From `s`, the command completes with the error `e` and no other effect (R97). -/
def FailsWith (e : ErrorCode) (i : Instr) (s : State) : Prop :=
  ∃ t, exec i s = .next t ∧ Failed e s t

/-- From `s`, the command completes and writes the point `q` to the point register `k`. -/
def WritesPoint (k : PointReg) (q : Point) (i : Instr) (s : State) : Prop :=
  ∃ t, exec i s = .next t ∧ PointWrote k q s t

/-- The errors of a command with one source point `q`, in the order of R98: the coefficients and the
coordinates before the curve equation. -/
def SourceErrors (q : Point) (i : Instr) (s : State) : Prop :=
  (¬ CoefficientsInRange s ∨ ¬ q.InRange → FailsWith .outOfRange i s) ∧
  (CoefficientsInRange s → q.InRange →
    onCurve s.curveA.toNat s.curveB.toNat q = false → FailsWith .notOnCurve i s)

/-- What PMUL with source point `q`, scalar `k` and destination `pd` does on a non-singular curve,
and its errors on every curve (R91). -/
def MultipliesPoint (pd : PointReg) (q : Point) (k : Nat) (i : Instr) (s : State) : Prop :=
  (CoefficientsInRange s → ValidSource s q →
    singular s.curveA.toNat s.curveB.toNat = false →
    WritesPoint pd (scalarMul s.curveA.toNat k q) i s) ∧
  SourceErrors q i s

/-- The access `a`, presented at `off`, gets the reply `reply` in the next step, and the registers
afterwards stand to those before as `post` says; it is consumed, and BASE and the pin stay. -/
def Served (s : State) (rest : List Input) (reply : Reply) (post : State → Prop) : Prop :=
  ∃ t, step s = .next t ∧ t.reply = some reply ∧ t.inputs = rest ∧ t.basePage = s.basePage ∧
    t.rstN = s.rstN ∧ post t

/-- The commands of the families field arithmetic and field exponentiation (R54). -/
def isFieldCommand : Instr → Bool
  | .madd _ _ _ _ | .msub _ _ _ _ | .mmul _ _ _ _ | .mont _ _ _ _ | .mred _ _ _
  | .mpow _ _ _ _ _ | .minv _ _ _ | .mdiv _ _ _ _ | .msqrt _ _ => true
  | .padd _ _ _ | .pdbl _ _ | .pneg _ _ | .pchk _ | .pmul _ _ _ _ | .pmulG _ _ _ => false

/-- The destination of a command, as the operand registers it may write (R16, R82, R89). -/
def destinations : Instr → List Reg
  | .madd _ rd _ _ | .msub _ rd _ _ | .mmul _ rd _ _ | .mont _ rd _ _ | .mred _ rd _
  | .mpow _ _ rd _ _ | .minv _ rd _ | .mdiv _ rd _ _ | .msqrt rd _ => [rd]
  | .padd pd _ _ | .pdbl pd _ | .pneg pd _ | .pmul _ pd _ _ | .pmulG _ pd _ =>
    [xReg (pointField pd), yReg (pointField pd)]
  | .pchk _ => []

/-- The identity flag a command may write (R30). -/
def flagDestination : Instr → Option PointReg
  | .padd pd _ _ | .pdbl pd _ | .pneg pd _ | .pmul _ pd _ _ | .pmulG _ pd _ =>
    some (pointField pd)
  | .pchk _ | .madd _ _ _ _ | .msub _ _ _ _ | .mmul _ _ _ _ | .mont _ _ _ _ | .mred _ _ _
  | .mpow _ _ _ _ _ | .minv _ _ _ | .mdiv _ _ _ _ | .msqrt _ _ => none

/-- The errors a legal command can raise (R95). -/
def raisable : Instr → List ErrorCode
  | .mred _ _ _ => []
  | .madd _ _ _ _ | .msub _ _ _ _ | .mmul _ _ _ _ | .mont _ _ _ _ | .mpow _ _ _ _ _
  | .msqrt _ _ => [.outOfRange]
  | .minv _ _ _ | .mdiv _ _ _ _ => [.outOfRange, .zeroDivisor]
  | .padd _ _ _ | .pdbl _ _ | .pneg _ _ | .pchk _ | .pmul _ _ _ _ | .pmulG _ _ _ =>
    [.outOfRange, .notOnCurve]

/-- `d` is word j of a 256-bit value, as integers (R15, R44). -/
def IsWordOf (d : Word) (v j : Nat) : Prop := d.toNat = v / 2 ^ (32 * j) % 2 ^ 32

/-- `d` is what the word at the offset reads as in state s (R42), case by case as integers. -/
def ReadsAs (s : State) (off : Nat) (d : Word) : Prop :=
  (off = 0x000 → d = 0x4D464531#32) ∧
  (off = 0x004 → d = s.cmd) ∧
  (off = 0x008 →
    d.toNat = s.busy.toNat + 2 * s.done.toNat + 4 * s.err.toNat + 8 * s.qr.toNat) ∧
  (off = 0x00C → d.toNat = s.code.toNat) ∧
  (off = 0x010 → d.toNat = s.doneIE.toNat + 2 * s.errIE.toNat) ∧
  (off = 0x014 → d.toNat = s.pinf.toNat) ∧
  (off = 0x018 → d = 0) ∧
  (0x01C ≤ off → off < 0x040 → d = 0) ∧
  (∀ j < 8, off = 0x040 + 4 * j → IsWordOf d s.curveA.toNat j) ∧
  (∀ j < 8, off = 0x060 + 4 * j → IsWordOf d s.curveB.toNat j) ∧
  (∀ j < 8, off = 0x080 + 4 * j → IsWordOf d Config.P j) ∧
  (∀ j < 8, off = 0x0A0 + 4 * j → IsWordOf d Config.N j) ∧
  (∀ j < 8, off = 0x0C0 + 4 * j → IsWordOf d Config.Gx j) ∧
  (∀ j < 8, off = 0x0E0 + 4 * j → IsWordOf d Config.Gy j) ∧
  (∀ i : Reg, ∀ j < 8, off = 0x100 + 0x20 * i.toNat + 4 * j → IsWordOf d (s.nat i) j) ∧
  (0x300 ≤ off → d = 0)

/-- Word j of the register that held `before` is now v, and the other seven words are as before
(R43). -/
def WordReplaced (before after : Word256) (j : Nat) (v : Word) : Prop :=
  wordOf after j = v ∧ ∀ k < 8, k ≠ j → wordOf after k = wordOf before k

/-- What an accepted 32-bit write of v at the offset does to the registers (R43): the register
written, and every other one left alone. -/
def WritesAs (s : State) (off : Nat) (v : Word) (t : State) : Prop :=
  (off = 0x004 → t.cmd = v ∧ t.done = false ∧ t.busy = true ∧
    SameRegisters s { t with cmd := s.cmd, done := s.done, busy := s.busy }) ∧
  (off = 0x008 →
    t.done = (s.done && !v.getLsbD 1) ∧ t.err = (s.err && !v.getLsbD 2) ∧
    t.code = (if v.getLsbD 2 then 0 else s.code) ∧
    SameRegisters s { t with done := s.done, err := s.err, code := s.code }) ∧
  (off = 0x010 → t.doneIE = v.getLsbD 0 ∧ t.errIE = v.getLsbD 1 ∧
    SameRegisters s { t with doneIE := s.doneIE, errIE := s.errIE }) ∧
  (off = 0x014 → (∀ k : PointReg, t.isInf k = v.getLsbD k.toNat) ∧
    SameRegisters s { t with pinf := s.pinf }) ∧
  (off = 0x018 → if v.getLsbD 0 then AtReset t else SameRegisters s t) ∧
  (∀ j < 8, off = 0x040 + 4 * j → WordReplaced s.curveA t.curveA j v ∧
    SameRegisters s { t with curveA := s.curveA }) ∧
  (∀ j < 8, off = 0x060 + 4 * j → WordReplaced s.curveB t.curveB j v ∧
    SameRegisters s { t with curveB := s.curveB }) ∧
  (∀ i : Reg, ∀ j < 8, off = 0x100 + 0x20 * i.toNat + 4 * j →
    WordReplaced (s.getR i) (t.getR i) j v ∧ (∀ i', i' ≠ i → t.getR i' = s.getR i') ∧
    SameRegisters s { t with r := s.r }) ∧
  (off = 0x000 ∨ off = 0x00C ∨ (0x01C ≤ off ∧ off < 0x040) ∨ (0x080 ≤ off ∧ off < 0x100) ∨
    0x300 ≤ off → SameRegisters s t)

end Sys2Proof.Machine
end

