-- ==== Sys2Proof/Certificates/Slice0/Obligations.lean ====
section
/-! DEFINITION. The statements for the provers. Each docstring names the rule it formalises; a
statement that rests on the model's own choice says which and names the log entry. -/

open Sys2Proof Sys2Proof.Machine

/-! ### Command words -/

/-- R63: the sample lines assemble to their commands, encode to their words and decode back, and the
sample illegal words complete with ILLEGAL_CMD. -/
def Obligations.SampleLinesEncodeAndIllegalSamplesFail : Prop :=
  (∀ x ∈ ([("MADD.P r3, r1, r2", .madd .P 3 1 2, 0x00213001#32),
      ("MADD.N r3, r1, r2", .madd .N 3 1 2, 0x00213041#32),
      ("MSUB.P r0, r0, r15", .msub .P 0 0 15, 0x00F00002#32),
      ("MMUL.N r4, r5, r6", .mmul .N 4 5 6, 0x00654043#32),
      ("MONT.P r2, r0, r1", .mont .P 2 0 1, 0x00102004#32),
      ("MRED.N r7, r7", .mred .N 7 7, 0x00077045#32),
      ("MPOW.P r1, r2, r3", .mpow .P false 1 2 3, 0x00321008#32),
      ("MPOW.N.S r1, r2, r3", .mpow .N true 1 2 3, 0x003210C8#32),
      ("MINV.N r9, r8", .minv .N 9 8, 0x00089049#32),
      ("MDIV.P r10, r11, r12", .mdiv .P 10 11 12, 0x00CBA00A#32),
      ("MSQRT.P r5, r4", .msqrt 5 4, 0x0004500B#32),
      ("PADD p2, p0, p1", .padd 2 0 1, 0x00102010#32),
      ("PDBL p1, p1", .pdbl 1 1, 0x00011011#32),
      ("PNEG p3, p0", .pneg 3 0, 0x00003012#32),
      ("PCHK p5", .pchk 5, 0x00050013#32),
      ("PMUL p0, p1, r5", .pmul false 0 1 5, 0x00510018#32),
      ("PMUL.RN p0, p1, r5", .pmul true 0 1 5, 0x00510098#32),
      ("PMUL p0, G, r1", .pmulG false 0 1, 0x00100118#32),
      ("PMUL.RN p7, G, r15", .pmulG true 7 15, 0x00F07198#32)] : List (String × Instr × Word)),
    assemble x.1.toList = some x.2.2 ∧ encode x.2.1 = x.2.2 ∧ decode x.2.2 = .ok x.2.1) ∧
  (∀ w ∈ ([0x00000000#32, 0x0000003F#32, 0x00000006#32, 0x0000004B#32, 0x00000081#32,
      0x00008010#32, 0x00000050#32, 0x00010118#32, 0x01000001#32, 0x00100201#32] : List Word),
    legal w = false ∧
      ∀ s : State, s.turn = .engine → s.cmd = w →
        ∃ t, step s = .next t ∧ Failed .illegalCmd s t)

/-- R52, R55: the decoder reads back every command from the word the encoder writes for it. -/
def Obligations.DecodeOfEncodedCommand : Prop :=
  ∀ i : Instr, i.wellFormed = true → decode (encode i) = .ok i

/-- R52, R55: a word the decoder accepts is the one word of the command it reads, which is
well-formed: no bit of a command word is ignored. -/
def Obligations.EncodeOfDecodedWord : Prop :=
  ∀ (w : Word) (i : Instr), decode w = .ok i → i.wellFormed = true ∧ encode i = w

/-- R56: the decoder accepts exactly the words with `Legal(w)`; here `Legal` is written out over the
bits of the word. -/
def Obligations.DecoderAcceptsExactlyLegalWords : Prop :=
  ∀ w : Word,
    let op := w.toNat % 64
    let RD := w.extractLsb' 12 4
    let RS1 := w.extractLsb' 16 4
    let RS2 := w.extractLsb' 20 4
    let F1 := w.getLsbD 8
    (∃ i, decode w = .ok i) ↔
      w.extractLsb' 9 3 = 0 ∧ w.extractLsb' 24 8 = 0 ∧
      op ∈ [0x01, 0x02, 0x03, 0x04, 0x05, 0x08, 0x09, 0x0A, 0x0B, 0x10, 0x11, 0x12, 0x13, 0x18] ∧
      (w.getLsbD 7 = true → op = 0x08 ∨ op = 0x18) ∧
      (F1 = true → op = 0x18) ∧
      (op = 0x05 ∨ op = 0x09 ∨ op = 0x0B → RS2 = 0) ∧
      (op = 0x0B → w.getLsbD 6 = false) ∧
      (0x10 ≤ op →
        w.getLsbD 6 = false ∧
        (if op = 0x13 then RD = 0 else RD.getLsbD 3 = false) ∧
        (if op = 0x18 ∧ F1 = true then RS1 = 0 else RS1.getLsbD 3 = false) ∧
        (op = 0x10 → RS2.getLsbD 3 = false) ∧
        (op = 0x11 ∨ op = 0x12 ∨ op = 0x13 → RS2 = 0))

/-- The rows of spec/opcode_table.json as (mask, match). -/
def Sys2Proof.opcodeRows : List (Word × Word) :=
  [(0xFF000FBF#32, 0x00000001#32), (0xFF000FBF#32, 0x00000002#32), (0xFF000FBF#32, 0x00000003#32),
   (0xFF000FBF#32, 0x00000004#32), (0xFFF00FBF#32, 0x00000005#32), (0xFF000F3F#32, 0x00000008#32),
   (0xFFF00FBF#32, 0x00000009#32), (0xFF000FBF#32, 0x0000000A#32), (0xFFF00FFF#32, 0x0000000B#32),
   (0xFF888FFF#32, 0x00000010#32), (0xFFF88FFF#32, 0x00000011#32), (0xFFF88FFF#32, 0x00000012#32),
   (0xFFF8FFFF#32, 0x00000013#32), (0xFF088F7F#32, 0x00000018#32), (0xFF0F8F7F#32, 0x00000118#32)]

/-- Which row of the table stands for a command. -/
def Sys2Proof.rowOf : Instr → Nat
  | .madd _ _ _ _ => 0
  | .msub _ _ _ _ => 1
  | .mmul _ _ _ _ => 2
  | .mont _ _ _ _ => 3
  | .mred _ _ _ => 4
  | .mpow _ _ _ _ _ => 5
  | .minv _ _ _ => 6
  | .mdiv _ _ _ _ => 7
  | .msqrt _ _ => 8
  | .padd _ _ _ => 9
  | .pdbl _ _ => 10
  | .pneg _ _ => 11
  | .pchk _ => 12
  | .pmul _ _ _ _ => 13
  | .pmulG _ _ _ => 14

/-- The machine-readable opcode table: a word fits a row (its masked bits are the row's) exactly if
it decodes to a command of that row, so no word fits two rows. -/
def Obligations.OpcodeTableRowsAreTheDecoder : Prop :=
  ∀ (w : Word) (n : Nat) (row : Word × Word), opcodeRows[n]? = some row →
    (w &&& row.1 = row.2 ↔ ∃ i, decode w = .ok i ∧ rowOf i = n)

/-- R57: an illegal word completes with ILLEGAL_CMD and writes nothing but STATUS and ERRCODE (CMD
keeps the word); the kinds of illegal word the rule lists are illegal. -/
def Obligations.IllegalWordCompletesWithIllegalCmd : Prop :=
  (∀ s : State, s.turn = .engine → legal s.cmd = false →
    ∃ t, step s = .next t ∧ Failed .illegalCmd s t) ∧
  (∀ w : Word,
    let op := w.toNat % 64
    (op ∈ [0x00, 0x06, 0x07, 0x0C, 0x0D, 0x0E, 0x0F, 0x14, 0x15, 0x16, 0x17] ∨ 0x19 ≤ op ∨
      w.extractLsb' 9 3 ≠ 0 ∨ w.extractLsb' 24 8 ≠ 0 ∨
      (w.getLsbD 7 = true ∧ op ≠ 0x08 ∧ op ≠ 0x18) ∨ (w.getLsbD 8 = true ∧ op ≠ 0x18) ∨
      (w.extractLsb' 20 4 ≠ 0 ∧ op ∈ [0x05, 0x09, 0x0B, 0x11, 0x12, 0x13]) ∨
      (w.extractLsb' 12 4 ≠ 0 ∧ op = 0x13) ∨
      (w.extractLsb' 16 4 ≠ 0 ∧ op = 0x18 ∧ w.getLsbD 8 = true) ∨
      (w.getLsbD 6 = true ∧ (op = 0x0B ∨ 0x10 ≤ op)) ∨
      (w.getLsbD 15 = true ∧ op ∈ [0x10, 0x11, 0x12, 0x18]) ∨
      (w.getLsbD 19 = true ∧ op ∈ [0x10, 0x11, 0x12, 0x13, 0x18]) ∨
      (w.getLsbD 23 = true ∧ op = 0x10)) →
    legal w = false)

/-- R59 (part): the engine has the turn exactly when reset is not asserted, a command is pending and
its latency has passed (the latency count is the model's, log entry 1); its step is then the rule of
the command that CMD decodes to, with nothing added around it. -/
def Obligations.EngineStepRunsThePendingCommand : Prop :=
  (∀ s : State, s.turn = .engine ↔ s.rstN = true ∧ s.busy = true ∧ s.wait = 0) ∧
  (∀ (s : State) (i : Instr), s.turn = .engine → decode s.cmd = .ok i → step s = exec i s)

/-- R61, R62: the line of a command assembles to that command, in lower case too, and the two
pseudo-commands expand as R62 says. How lines are taken apart is the model's (log entry 8). -/
def Obligations.AssemblerReadsEveryLine : Prop :=
  (∀ i : Instr, i.wellFormed = true →
    assembleLine (asmLine i) = some i ∧ assembleLine ((asmLine i).map Char.toLower) = some i) ∧
  (∀ (m : Modulus) (rd rs : Reg),
    assembleLine (['M', 'S', 'Q', 'R'] ++ modulusSuffix m ++ operands [regName rd, regName rs]) =
      some (.mmul m rd rs rs)) ∧
  (∀ (rn : Bool) (pd rk : Reg), isPointField pd = true →
    assembleLine (['P', 'M', 'U', 'L', 'G'] ++ optionSuffix rn ['.', 'R', 'N'] ++
      operands [pointName pd, regName rk]) = some (.pmulG rn pd rk))

/-! ### Field commands -/

/-- R68: MADD. -/
def Obligations.MaddAddsModulo : Prop :=
  ∀ (m : Modulus) (rd rs1 rs2 : Reg) (s : State),
    let i := Instr.madd m rd rs1 rs2
    Encodes i 0x01 m.bit false false rd rs1 rs2 ∧
    (s.nat rs1 < modulusOf m → s.nat rs2 < modulusOf m →
      ∃ t, exec i s = .next t ∧ t.nat rd = (s.nat rs1 + s.nat rs2) % modulusOf m ∧
        t.qr = s.qr ∧ FieldWrote rd s t) ∧
    (modulusOf m ≤ s.nat rs1 ∨ modulusOf m ≤ s.nat rs2 → FailsWith .outOfRange i s)

/-- R69: MSUB. -/
def Obligations.MsubSubtractsModulo : Prop :=
  ∀ (m : Modulus) (rd rs1 rs2 : Reg) (s : State),
    let i := Instr.msub m rd rs1 rs2
    Encodes i 0x02 m.bit false false rd rs1 rs2 ∧
    (s.nat rs1 < modulusOf m → s.nat rs2 < modulusOf m →
      ∃ t, exec i s = .next t ∧
        t.nat rd = (if s.nat rs2 ≤ s.nat rs1 then s.nat rs1 - s.nat rs2
          else s.nat rs1 + modulusOf m - s.nat rs2) ∧
        t.qr = s.qr ∧ FieldWrote rd s t) ∧
    (modulusOf m ≤ s.nat rs1 ∨ modulusOf m ≤ s.nat rs2 → FailsWith .outOfRange i s)

/-- R70: MMUL. -/
def Obligations.MmulMultipliesModulo : Prop :=
  ∀ (m : Modulus) (rd rs1 rs2 : Reg) (s : State),
    let i := Instr.mmul m rd rs1 rs2
    Encodes i 0x03 m.bit false false rd rs1 rs2 ∧
    (s.nat rs1 < modulusOf m → s.nat rs2 < modulusOf m →
      ∃ t, exec i s = .next t ∧ t.nat rd = s.nat rs1 * s.nat rs2 % modulusOf m ∧
        t.qr = s.qr ∧ FieldWrote rd s t) ∧
    (modulusOf m ≤ s.nat rs1 ∨ modulusOf m ≤ s.nat rs2 → FailsWith .outOfRange i s)

/-- R71: MONT. The result is the residue t below m with t · 2^256 ≡ a · b (mod m); for a = b = 1 it
is inv_R, and a second Montgomery product with R_M² mod m gives the plain product. -/
def Obligations.MontIsTheMontgomeryProduct : Prop :=
  ∀ (m : Modulus) (rd rs1 rs2 : Reg) (s : State),
    let i := Instr.mont m rd rs1 rs2
    Encodes i 0x04 m.bit false false rd rs1 rs2 ∧
    (s.nat rs1 < modulusOf m → s.nat rs2 < modulusOf m →
      ∃ t, exec i s = .next t ∧ t.nat rd < modulusOf m ∧
        t.nat rd * 2 ^ 256 % modulusOf m = s.nat rs1 * s.nat rs2 % modulusOf m ∧
        (∀ v < modulusOf m, v * 2 ^ 256 % modulusOf m = s.nat rs1 * s.nat rs2 % modulusOf m →
          v = t.nat rd) ∧
        montMul m (t.nat rd) (2 ^ 512 % modulusOf m) = s.nat rs1 * s.nat rs2 % modulusOf m ∧
        t.qr = s.qr ∧ FieldWrote rd s t) ∧
    (modulusOf m ≤ s.nat rs1 ∨ modulusOf m ≤ s.nat rs2 → FailsWith .outOfRange i s)

/-- R72: MRED, of any 256-bit value. -/
def Obligations.MredReducesAnyValue : Prop :=
  ∀ (m : Modulus) (rd rs1 : Reg) (s : State),
    let i := Instr.mred m rd rs1
    Encodes i 0x05 m.bit false false rd rs1 0 ∧
    ∃ t, exec i s = .next t ∧
      t.nat rd = (if s.nat rs1 < modulusOf m then s.nat rs1 else s.nat rs1 - modulusOf m) ∧
      t.nat rd = s.nat rs1 % modulusOf m ∧ t.qr = s.qr ∧ FieldWrote rd s t

/-- R74: MPOW. The exponent is normalised modulo m - 1 whatever it is, and the result is the power
of the integers, reduced. -/
def Obligations.MpowRaisesToTheNormalisedExponent : Prop :=
  ∀ (m : Modulus) (signed : Bool) (rd rs1 rs2 : Reg) (s : State),
    let i := Instr.mpow m signed rd rs1 rs2
    let E : Int := if signed ∧ 2 ^ 255 ≤ s.nat rs2 then (s.nat rs2 : Int) - 2 ^ 256 else s.nat rs2
    Encodes i 0x08 m.bit signed false rd rs1 rs2 ∧
    (s.nat rs1 < modulusOf m →
      ∃ t, exec i s = .next t ∧
        t.nat rd = s.nat rs1 ^ (E % ((modulusOf m : Int) - 1)).toNat % modulusOf m ∧
        t.qr = s.qr ∧ FieldWrote rd s t) ∧
    (modulusOf m ≤ s.nat rs1 → FailsWith .outOfRange i s)

/-- R75: MINV. The result is a^(m-2) mod m, and it is the inverse of a. -/
def Obligations.MinvIsTheInverse : Prop :=
  ∀ (m : Modulus) (rd rs1 : Reg) (s : State),
    let i := Instr.minv m rd rs1
    Encodes i 0x09 m.bit false false rd rs1 0 ∧
    (s.nat rs1 < modulusOf m → s.nat rs1 ≠ 0 →
      ∃ t, exec i s = .next t ∧ t.nat rd = s.nat rs1 ^ (modulusOf m - 2) % modulusOf m ∧
        s.nat rs1 * t.nat rd % modulusOf m = 1 ∧ t.qr = s.qr ∧ FieldWrote rd s t) ∧
    (modulusOf m ≤ s.nat rs1 → FailsWith .outOfRange i s) ∧
    (s.nat rs1 = 0 → FailsWith .zeroDivisor i s)

/-- R76: MDIV. The result is a · b^(m-2) mod m, and the quotient times the divisor is the dividend. -/
def Obligations.MdivDividesModulo : Prop :=
  ∀ (m : Modulus) (rd rs1 rs2 : Reg) (s : State),
    let i := Instr.mdiv m rd rs1 rs2
    Encodes i 0x0A m.bit false false rd rs1 rs2 ∧
    (s.nat rs1 < modulusOf m → s.nat rs2 < modulusOf m → s.nat rs2 ≠ 0 →
      ∃ t, exec i s = .next t ∧
        t.nat rd = s.nat rs1 * s.nat rs2 ^ (modulusOf m - 2) % modulusOf m ∧
        t.nat rd * s.nat rs2 % modulusOf m = s.nat rs1 ∧ t.qr = s.qr ∧ FieldWrote rd s t) ∧
    (modulusOf m ≤ s.nat rs1 ∨ modulusOf m ≤ s.nat rs2 → FailsWith .outOfRange i s) ∧
    (s.nat rs1 < modulusOf m → s.nat rs2 = 0 → FailsWith .zeroDivisor i s)

/-- R77: MSQRT. The value written is a^((P+1)/4) mod P, a root of a if a is a square and a root of
P - a if not; QR says which. A word with M = 1 is illegal. R77 marks the clause on non-residues (the
square is P - a) as general knowledge. -/
def Obligations.MsqrtWritesTheRootAndQr : Prop :=
  (∀ (rd rs1 : Reg) (s : State),
    let i := Instr.msqrt rd rs1
    Encodes i 0x0B false false false rd rs1 0 ∧
    (s.nat rs1 < Config.P →
      ∃ t, exec i s = .next t ∧ t.nat rd = s.nat rs1 ^ ((Config.P + 1) / 4) % Config.P ∧
        (t.qr = true ↔ t.nat rd * t.nat rd % Config.P = s.nat rs1) ∧
        (t.qr = true ↔ ∃ x, x * x % Config.P = s.nat rs1) ∧
        (t.qr = false → t.nat rd * t.nat rd % Config.P = Config.P - s.nat rs1) ∧
        FieldWrote rd s t) ∧
    (Config.P ≤ s.nat rs1 → FailsWith .outOfRange i s)) ∧
  (∀ w : Word, w.toNat % 64 = 0x0B → w.getLsbD 6 = true → legal w = false)

/-! ### Point commands -/

/-- R86: PADD. -/
def Obligations.PaddAddsPoints : Prop :=
  ∀ (pd ps1 ps2 : Reg) (s : State),
    let i := Instr.padd pd ps1 ps2
    let p := s.pt (pointField ps1)
    let q := s.pt (pointField ps2)
    let on := onCurve s.curveA.toNat s.curveB.toNat
    Encodes i 0x10 false false false pd ps1 ps2 ∧
    (CoefficientsInRange s → ValidSource s p → ValidSource s q →
      WritesPoint (pointField pd) (pointAdd s.curveA.toNat p q) i s) ∧
    (¬ CoefficientsInRange s ∨ ¬ p.InRange ∨ ¬ q.InRange → FailsWith .outOfRange i s) ∧
    (CoefficientsInRange s → p.InRange → q.InRange → on p = false ∨ on q = false →
      FailsWith .notOnCurve i s)

/-- R87: PDBL. -/
def Obligations.PdblDoublesAPoint : Prop :=
  ∀ (pd ps1 : Reg) (s : State),
    let i := Instr.pdbl pd ps1
    let p := s.pt (pointField ps1)
    Encodes i 0x11 false false false pd ps1 0 ∧
    (CoefficientsInRange s → ValidSource s p →
      WritesPoint (pointField pd) (pointAdd s.curveA.toNat p p) i s) ∧
    SourceErrors p i s ∧
    (∀ x, p = .affine x 0 → pointAdd s.curveA.toNat p p = .inf) ∧
    pointAdd s.curveA.toNat p p = scalarMul s.curveA.toNat 2 p

/-- R88: PNEG. R88 marks its corner case, that the sum of a point and its negative is INF, as derived
from R83. -/
def Obligations.PnegNegatesAPoint : Prop :=
  ∀ (pd ps1 : Reg) (s : State),
    let i := Instr.pneg pd ps1
    let p := s.pt (pointField ps1)
    let neg := match p with
      | .inf => Point.inf
      | .affine x y => Point.affine x ((Config.P - y) % Config.P)
    Encodes i 0x12 false false false pd ps1 0 ∧
    (CoefficientsInRange s → ValidSource s p → WritesPoint (pointField pd) neg i s) ∧
    SourceErrors p i s ∧
    (p.InRange → pointAdd s.curveA.toNat p neg = .inf)

/-- R89: PCHK, which only checks. -/
def Obligations.PchkChecksAndWritesNothing : Prop :=
  ∀ (ps1 : Reg) (s : State),
    let i := Instr.pchk ps1
    let p := s.pt (pointField ps1)
    Encodes i 0x13 false false false 0 ps1 0 ∧
    (CoefficientsInRange s → ValidSource s p →
      ∃ t, exec i s = .next t ∧ Succeeded s t ∧ t.r = s.r ∧ t.pinf = s.pinf ∧ t.qr = s.qr) ∧
    SourceErrors p i s ∧
    (CoefficientsInRange s → s.isInf (pointField ps1) = true →
      ∃ t, exec i s = .next t ∧ Succeeded s t)

/-- R91: PMUL in both forms, on every non-singular curve; on a singular curve the point is R92's
(SingularCurvePmulCompletes). -/
def Obligations.PmulMultipliesAPoint : Prop :=
  ∀ (rn : Bool) (pd ps1 rk : Reg) (s : State),
    let k := if rn then s.nat rk % Config.N else s.nat rk
    Encodes (.pmul rn pd ps1 rk) 0x18 false rn false pd ps1 rk ∧
    Encodes (.pmulG rn pd rk) 0x18 false rn true pd 0 rk ∧
    MultipliesPoint (pointField pd) (s.pt (pointField ps1)) k (.pmul rn pd ps1 rk) s ∧
    MultipliesPoint (pointField pd) (.affine Config.Gx Config.Gy) k (.pmulG rn pd rk) s

/-- R92 (part): on a singular curve PMUL completes in both forms, and the point it writes is INF or
lies in [0, P)². It is a free value of the model (log entry 2): the statement holds whatever it
is. -/
def Obligations.SingularCurvePmulCompletes : Prop :=
  ∀ (rn : Bool) (pd ps1 rk : Reg) (s : State), CoefficientsInRange s →
    singular s.curveA.toNat s.curveB.toNat = true →
    (ValidSource s (s.pt (pointField ps1)) →
      ∃ q : Point, q.InRange ∧ WritesPoint (pointField pd) q (.pmul rn pd ps1 rk) s) ∧
    (ValidSource s (.affine Config.Gx Config.Gy) →
      ∃ q : Point, q.InRange ∧ WritesPoint (pointField pd) q (.pmulG rn pd rk) s)

/-! ### The group law -/

/-- R84: the denominators of PointAdd are not zero, and no point or scalar command raises
ZERO_DIVISOR. -/
def Obligations.PointCommandsNeverDivideByZero : Prop :=
  (∀ x1 x2 : Nat, x1 < Config.P → x2 < Config.P → x1 ≠ x2 →
    ((x2 : Int) - x1) % (Config.P : Int) ≠ 0) ∧
  (∀ y1 : Nat, y1 < Config.P → y1 ≠ 0 → 2 * y1 % Config.P ≠ 0) ∧
  (∀ (i : Instr) (s t : State), isFieldCommand i = false → s.err = false → exec i s = .next t →
    t.code ≠ ErrorCode.toCode .zeroDivisor ∨ s.code = ErrorCode.toCode .zeroDivisor)

/-- R83: the cases of the group law in the order tried: INF is neutral; the same x with different y
gives INF; doubling a point with y = 0 gives INF; else the chord or tangent formulas hold modulo P.
Besides, the sum of points in range does not depend on their order. -/
def Obligations.GroupLawCases : Prop :=
  (∀ (a : Nat) (p : Point), pointAdd a .inf p = p ∧ pointAdd a p .inf = p) ∧
  (∀ a x y1 y2 : Nat, y1 ≠ y2 → pointAdd a (.affine x y1) (.affine x y2) = .inf) ∧
  (∀ a x : Nat, pointAdd a (.affine x 0) (.affine x 0) = .inf) ∧
  (∀ a x1 y1 x2 y2 : Nat, (Point.affine x1 y1).InRange → (Point.affine x2 y2).InRange →
    (x1 = x2 → y1 = y2 ∧ y1 ≠ 0) →
    ∃ sl x3 y3 : Nat,
      pointAdd a (.affine x1 y1) (.affine x2 y2) = .affine x3 y3 ∧
      x3 < Config.P ∧ y3 < Config.P ∧
      (if x1 = x2 then (sl * (2 * y1) : Int) ≡ 3 * x1 ^ 2 + a [ZMOD Config.P]
        else (sl : Int) * (x2 - x1) ≡ y2 - y1 [ZMOD Config.P]) ∧
      (x3 : Int) ≡ sl ^ 2 - x1 - x2 [ZMOD Config.P] ∧
      (y3 : Int) ≡ sl * (x1 - x3) - y1 [ZMOD Config.P]) ∧
  (∀ (a : Nat) (p q : Point), p.InRange → q.InRange → pointAdd a p q = pointAdd a q p)

/-- R85: on a non-singular curve the sum of two points of the curve is a point of the curve, and so
is every point a successful point or scalar command writes. -/
def Obligations.PointAddStaysOnTheCurve : Prop :=
  (∀ (a b : Nat) (p q : Point), a < Config.P → b < Config.P → singular a b = false →
    p.InRange → q.InRange → onCurve a b p = true → onCurve a b q = true →
    (pointAdd a p q).InRange ∧ onCurve a b (pointAdd a p q) = true) ∧
  (∀ (i : Instr) (s t : State) (k : PointReg), flagDestination i = some k →
    singular s.curveA.toNat s.curveB.toNat = false → s.err = false → exec i s = .next t →
    t.err = false → ValidSource t (t.pt k))

/-- R90: ScalarMul is the loop of the rule: some function `run` obeys the loop's equations, and
ScalarMul starts it with result INF. -/
def Obligations.ScalarMulIsDoubleAndAdd : Prop :=
  ∀ a : Nat, ∃ run : Nat → Point → Point → Point,
    (∀ current result, run 0 current result = result) ∧
    (∀ k current result, 0 < k →
      run k current result =
        run (k / 2) (pointAdd a current current)
          (if k % 2 = 1 then pointAdd a result current else result)) ∧
    (∀ k q, scalarMul a k q = run k q .inf) ∧
    (∀ q, scalarMul a 0 q = .inf) ∧ (∀ k, scalarMul a k .inf = .inf)

/-- R92: on a non-singular curve the multiples of a point form a group, so every algorithm that adds
multiples gives the same point. R92 marks this sentence as general knowledge. -/
def Obligations.ScalarMulAddsScalars : Prop :=
  ∀ (a b : Nat) (q : Point), a < Config.P → b < Config.P → singular a b = false →
    q.InRange → onCurve a b q = true →
    ∀ j k : Nat, scalarMul a (j + k) q = pointAdd a (scalarMul a j q) (scalarMul a k q)

/-- R21, R91: N · G is the identity on the curve a = 0, b = 7, and G lies on it. -/
def Obligations.GeneratorHasOrderN : Prop :=
  onCurve 0 7 (.affine Config.Gx Config.Gy) = true ∧
    scalarMul 0 Config.N (.affine Config.Gx Config.Gy) = .inf

/-- R91 (corner cases): for G on secp256k1 the option RN changes nothing, N + 1 gives G and N - 1
gives -G. R91 marks these as derived; the values of N and G are general knowledge (log entry 10). -/
def Obligations.RnChangesNothingForTheGenerator : Prop :=
  let g : Point := .affine Config.Gx Config.Gy
  (∀ k : Nat, scalarMul 0 (k % Config.N) g = scalarMul 0 k g) ∧
  scalarMul 0 (Config.N + 1) g = g ∧
  scalarMul 0 (Config.N - 1) g = .affine Config.Gx (Config.P - Config.Gy)

/-! ### Errors and flags -/

/-- R99: ERR is sticky and CODE keeps the first error; clearing takes both together; an error blocks
no later command, whose results do not depend on ERR and CODE. -/
def Obligations.ErrIsStickyAndFirstCodeIsKept : Prop :=
  (∀ (i : Instr) (s t : State), s.err = true → exec i s = .next t →
    t.err = true ∧ t.code = s.code) ∧
  (∀ (i : Instr) (s t : State) (err : Bool) (code : BitVec 4), exec i s = .next t →
    ∃ t', exec i { s with err := err, code := code } = .next t' ∧
      t'.r = t.r ∧ t'.pinf = t.pinf ∧ t'.qr = t.qr) ∧
  (∀ (s : State) (a : Access) (v : Word) (rest : List Input), Presented s a 0x008 rest →
    a.Aligned32 0x008 → a.kind = .write v → v.getLsbD 2 = true →
    ∃ t, step s = .next t ∧ t.err = false ∧ t.code = 0) ∧
  (∀ t : State, AtReset t → t.err = false ∧ t.code = 0)

/-- R30, R32: a command's results are a function of the operand registers, PINF and the coefficients
(on a singular curve of the draw too, log entry 2): no flag of STATUS is read. -/
def Obligations.CommandsIgnoreStatus : Prop :=
  ∀ (i : Instr) (s s' : State), s'.r = s.r → s'.pinf = s.pinf → s'.curveA = s.curveA →
    s'.curveB = s.curveB →
    (singular s.curveA.toNat s.curveB.toNat = true → s'.draws = s.draws) →
    ∃ t t', exec i s = .next t ∧ exec i s' = .next t' ∧ t'.r = t.r ∧ t'.pinf = t.pinf ∧
      (Succeeded s t ∧ Succeeded s' t' ∧ (s'.qr = s.qr → t'.qr = t.qr) ∨
        ∃ e : ErrorCode, Failed e s t ∧ Failed e s' t')

/-- R97: a command either succeeds, leaving ERR and CODE alone, or raises one error and has no other
effect; and the error is one R95 lets the command raise, so MRED raises none. -/
def Obligations.CommandsRaiseOnlyTheirErrors : Prop :=
  ∀ (i : Instr) (s : State), ∃ t, exec i s = .next t ∧
    (Succeeded s t ∨ ∃ e ∈ raisable i, Failed e s t)

/-- R18, R25, R30, R116: which flags a command writes: QR only MSQRT, PINF only the flag of a point
or scalar command's destination, and no command but those writes PINF. -/
def Obligations.CommandsWriteOnlyTheirFlags : Prop :=
  ∀ (i : Instr) (s t : State), exec i s = .next t →
    ((∀ rd rs1, i ≠ .msqrt rd rs1) → t.qr = s.qr) ∧
    (∀ k : PointReg, flagDestination i ≠ some k → t.isInf k = s.isInf k) ∧
    (isFieldCommand i = true → t.pinf = s.pinf)

/-- The frame of every command, read through the window: every word outside the destination
registers, STATUS, ERRCODE and PINF reads as before. -/
def Obligations.CommandsLeaveTheRestOfTheWindow : Prop :=
  ∀ (i : Instr) (s t : State), exec i s = .next t →
    ∀ off : Nat, off < Config.windowBytes → off % 4 = 0 →
      off ≠ 0x008 → off ≠ 0x00C → off ≠ 0x014 →
      (∀ rd ∈ destinations i, ∀ j < 8, off ≠ 0x100 + 0x20 * rd.toNat + 4 * j) →
      t.readSlot (slotAt off) = s.readSlot (slotAt off)

/-- R25, R99: ERR falls in a step only through a write of 1 to STATUS bit 2, a soft reset or the
reset pin. How the pin is driven is the model's (log entry 14). -/
def Obligations.ErrFallsOnlyByClearOrReset : Prop :=
  ∀ s t : State, step s = .next t → s.err = true → t.err = false →
    s.rstN = false ∨ (∃ rest, s.inputs = .rstN false :: rest) ∨
    ∃ (a : Access) (off : Nat) (v : Word) (rest : List Input), Presented s a off rest ∧
      a.kind = .write v ∧ a.Aligned32 off ∧
      ((off = 0x008 ∧ v.getLsbD 2 = true) ∨ (off = 0x018 ∧ v.getLsbD 0 = true))

/-- R100: the interrupt line, and when it rises and falls: with the completion step it is DONE_IE
or ERR with ERR_IE; it falls with the acknowledgement, with a new command unless ERR holds it, and
with reset. -/
def Obligations.IrqFollowsTheEnabledFlags : Prop :=
  (∀ s : State, s.irq = true ↔
    (s.done = true ∧ s.doneIE = true) ∨ (s.err = true ∧ s.errIE = true)) ∧
  (∀ s t : State, s.turn = .engine → step s = .next t →
    t.irq = (s.doneIE || (t.err && s.errIE))) ∧
  (∀ (s t : State) (a : Access) (v : Word) (rest : List Input), Presented s a 0x008 rest →
    a.Aligned32 0x008 → a.kind = .write v → v.getLsbD 1 = true → v.getLsbD 2 = true →
    step s = .next t → t.irq = false) ∧
  (∀ (s t : State) (a : Access) (v : Word) (rest : List Input), Presented s a 0x004 rest →
    a.Aligned32 0x004 → a.kind = .write v → s.busy = false → step s = .next t →
    t.irq = (s.err && s.errIE)) ∧
  (∀ t : State, AtReset t → t.irq = false)

/-! ### The bus -/

/-- R58: an accepted write to CMD stores the word, clears DONE and sets BUSY, whatever the word; ERR,
ERRCODE, QR, IE and every operand register are unchanged. -/
def Obligations.IssueStoresTheWordAndSetsBusy : Prop :=
  ∀ (s : State) (a : Access) (v : Word) (rest : List Input), Presented s a 0x004 rest →
    a.Aligned32 0x004 → a.kind = .write v → s.busy = false →
    Served s rest (.write .OKAY) fun t =>
      t.cmd = v ∧ t.done = false ∧ t.busy = true ∧ t.err = s.err ∧ t.code = s.code ∧
      t.qr = s.qr ∧ t.doneIE = s.doneIE ∧ t.errIE = s.errIE ∧ t.r = s.r ∧ t.pinf = s.pinf ∧
      t.curveA = s.curveA ∧ t.curveB = s.curveB

/-- R42: what a read of the window answers, and that it changes nothing. -/
def Obligations.ReadsAnswerTheRegisters : Prop :=
  ∀ (s : State) (a : Access) (off : Nat) (rest : List Input), Presented s a off rest →
    a.kind = .read →
    (a.Aligned32 off → ∃ d : Word, ReadsAs s off d ∧
      Served s rest (.read .OKAY d) (SameRegisters s)) ∧
    (¬ a.Aligned32 off → Served s rest (.read .SLVERR 0) (SameRegisters s))

/-- R43: what a write of the window does: refused without effect, or the register written and every
other one unchanged. -/
def Obligations.WritesChangeTheRegistersAsMapped : Prop :=
  ∀ (s : State) (a : Access) (off : Nat) (v : Word) (rest : List Input), Presented s a off rest →
    a.kind = .write v →
    (¬ a.Aligned32 off ∨ (s.busy = true ∧ LockedOffset off) →
      Served s rest (.write .SLVERR) (SameRegisters s)) ∧
    (a.Aligned32 off → ¬ (s.busy = true ∧ LockedOffset off) →
      Served s rest (.write .OKAY) (WritesAs s off v))

/-- R40: while BUSY = 1, aligned writes to the locked offsets are refused without effect, and every
other aligned access is served. -/
def Obligations.BusyLocksOperandsAndCommand : Prop :=
  ∀ (s : State) (a : Access) (off : Nat) (rest : List Input), Presented s a off rest →
    a.Aligned32 off → s.busy = true →
    (∀ v, a.kind = .write v → LockedOffset off →
      Served s rest (.write .SLVERR) (SameRegisters s)) ∧
    (∀ v, a.kind = .write v → off = 0x008 ∨ off = 0x010 ∨ off = 0x018 →
      Served s rest (.write .OKAY) (WritesAs s off v)) ∧
    (a.kind = .read → ∃ d, ReadsAs s off d ∧ Served s rest (.read .OKAY d) (SameRegisters s))

/-- R37, R38: an access that is not 32 bits on all lanes at a multiple of 4 gets SLVERR, data 0 for a
read, and has no effect on any register, on the pending command or on the interrupt line. -/
def Obligations.MisfitAccessesAreRefused : Prop :=
  ∀ (s : State) (a : Access) (off : Nat) (rest : List Input), Presented s a off rest →
    a.bytes ≠ 4 ∨ a.lanes ≠ 0xF#4 ∨ off % 4 ≠ 0 →
    (a.kind = .read →
      Served s rest (.read .SLVERR 0) fun t => SameRegisters s t ∧ t.irq = s.irq) ∧
    (∀ v, a.kind = .write v →
      Served s rest (.write .SLVERR) fun t => SameRegisters s t ∧ t.irq = s.irq)

/-- R39: aligned writes to read-only and reserved offsets get OKAY and do nothing, and writes to
writable registers leave their reserved and read-only bits alone. -/
def Obligations.ReadOnlyWritesDoNothing : Prop :=
  ∀ (s : State) (a : Access) (off : Nat) (v : Word) (rest : List Input), Presented s a off rest →
    a.kind = .write v → a.Aligned32 off →
    (off = 0x000 ∨ off = 0x00C ∨ (0x080 ≤ off ∧ off < 0x100) ∨ (0x01C ≤ off ∧ off < 0x040) ∨
      0x300 ≤ off → Served s rest (.write .OKAY) (SameRegisters s)) ∧
    (off = 0x008 → Served s rest (.write .OKAY) fun t =>
      ∀ n, n = 0 ∨ n = 3 ∨ 4 ≤ n → t.statusWord.getLsbD n = s.statusWord.getLsbD n) ∧
    (off = 0x010 → Served s rest (.write .OKAY) fun t =>
      ∀ n, 2 ≤ n → t.ieWord.getLsbD n = s.ieWord.getLsbD n) ∧
    (off = 0x014 → s.busy = false → Served s rest (.write .OKAY) fun t =>
      ∀ n, 8 ≤ n → t.pinfWord.getLsbD n = s.pinfWord.getLsbD n) ∧
    (off = 0x018 → v.getLsbD 0 = false → Served s rest (.write .OKAY) (SameRegisters s))

/-- R42, R43, R45: a word written to an operand register or a coefficient is read back, and every
other word of the window reads as before. -/
def Obligations.WindowReadAfterWrite : Prop :=
  ∀ (s : State) (off : Nat) (v : Word),
    (0x040 ≤ off ∧ off < 0x080) ∨ (0x100 ≤ off ∧ off < 0x300) → off % 4 = 0 →
    (s.writeSlot (slotAt off) v).readSlot (slotAt off) = v ∧
    ∀ off' : Nat, off' < Config.windowBytes → off' % 4 = 0 → off' ≠ off →
      (s.writeSlot (slotAt off) v).readSlot (slotAt off') = s.readSlot (slotAt off')

/-- R44, R45, R114: eight word writes of W256 install a value in an operand register and change
nothing else. -/
def Obligations.Write256InstallsAnOperand : Prop :=
  ∀ (s : State) (i : Reg) (v : Word256) (rest : List Input), s.rstN = true → s.busy = false →
    s.inputs = write256 (s.base + operandOffset i) v ++ rest →
    ∃ t, core.run 8 s = .next t ∧ t.getR i = v ∧ (∀ j, j ≠ i → t.getR j = s.getR j) ∧
      t.inputs = rest ∧ t.reply = some (.write .OKAY) ∧
      SameRegisters s { t with r := s.r }

/-- R44: the words of a register in terms of the host's byte strings: the 32-byte big-endian string
of the external formats, and the little-endian image of the register. -/
def Obligations.ByteOrdersOfARegister : Prop :=
  (∀ (bytes : List (BitVec 8)) (hlen : bytes.length = 32) (j : Fin 8),
    wordOf (BitVec.ofNat 256 (bigEndian bytes)) j =
      bytes[28 - 4 * j.val] ++ bytes[29 - 4 * j.val] ++ bytes[30 - 4 * j.val] ++
        bytes[31 - 4 * j.val]) ∧
  (∀ v : Word256, littleEndian ((List.range 32).map (byteOf v)) = v.toNat)

/-- R34: an access outside the window does not reach the MFE: no register changes and the MFE gives
no answer. BASE is any multiple of 4096 (a field no step changes, log entry 4). -/
def Obligations.AccessOutsideTheWindowIsUnseen : Prop :=
  ∀ (s : State) (a : Access) (rest : List Input), s.rstN = true → s.turn = .host →
    s.inputs = .access a :: rest → a.addr < s.base ∨ s.base + 4096 ≤ a.addr →
    s.base % 4096 = 0 ∧
    ∃ t, step s = .next t ∧ SameRegisters s t ∧ t.reply = none ∧ t.inputs = rest ∧
      t.basePage = s.basePage

/-- R105: every access is served alike, whatever privilege or security attribute it carries. -/
def Obligations.AttributesAreNotLookedAt : Prop :=
  ∀ (s : State) (a : Access) (attr : Nat) (rest : List Input), s.turn = .host →
    step { s with inputs := .access a :: rest } =
      step { s with inputs := .access { a with attr := attr } :: rest }

/-! ### Reset -/

/-- R108: asserting `rst_n` puts every register at its reset value and discards a pending command;
while it is asserted they stay there in every step; IRQ is 0 after reset. That a change of the pin is
an input (log entry 7), served only on the host side's turn, so that a completion that is due comes
first, and that the pin is released exactly by the next input (log entry 14) are the model's. -/
def Obligations.HardResetRestoresEveryRegister : Prop :=
  (∀ (s : State) (rest : List Input), s.turn = .host → s.inputs = .rstN false :: rest →
    ∃ t, step s = .next t ∧ AtReset t ∧ t.rstN = false ∧ t.inputs = rest ∧ t.irq = false) ∧
  (∀ s : State, s.rstN = false →
    ∃ t, step s = .next t ∧ AtReset t ∧ t.irq = false ∧
      (t.rstN = true ↔ ∃ rest, s.inputs = .rstN true :: rest))

/-- R110: a write of 1 to CTRL bit 0 resets every register within the access, busy or not, discards
a pending command and gets OKAY; and it is the only way to abort a command: a pending command leaves
BUSY = 1 only in its completion step, in a soft reset or under the reset pin. -/
def Obligations.SoftResetRestoresEveryRegister : Prop :=
  (∀ (s : State) (a : Access) (v : Word) (rest : List Input), Presented s a 0x018 rest →
    a.Aligned32 0x018 → a.kind = .write v → v.getLsbD 0 = true →
    Served s rest (.write .OKAY) fun t => AtReset t ∧ t.turn = .host ∧ t.irq = false) ∧
  (∀ s t : State, s.rstN = true → s.busy = true → step s = .next t → t.busy = false →
    s.turn = .engine ∨ (∃ rest, s.inputs = .rstN false :: rest) ∨
    ∃ (a : Access) (v : Word) (rest : List Input), Presented s a 0x018 rest ∧
      a.Aligned32 0x018 ∧ a.kind = .write v ∧ v.getLsbD 0 = true)

/-- R109: after reset every point register is INF, and point addition, doubling and multiplication
of registers the host never wrote compute on the identity and raise no error. -/
def Obligations.ResetPointsAreTheIdentity : Prop :=
  ∀ s : State, AtReset s →
    (∀ k, s.pt k = .inf) ∧
    (∀ pd ps1 ps2, WritesPoint (pointField pd) .inf (.padd pd ps1 ps2) s) ∧
    (∀ pd ps1, WritesPoint (pointField pd) .inf (.pdbl pd ps1) s) ∧
    (∀ rn pd ps1 rk, WritesPoint (pointField pd) .inf (.pmul rn pd ps1 rk) s) ∧
    (∀ rn pd rk, WritesPoint (pointField pd) .inf (.pmulG rn pd rk) s)

/-- R15, R108: the state after reset has every register at its reset value, and the invariant
holds. -/
def Obligations.ResetStateHoldsTheResetValues : Prop :=
  AtReset State.reset ∧ State.reset.irq = false ∧ Inv State.reset

/-! ### The machine -/

/-- The invariant is kept by every step, from every state that has it. -/
def Obligations.EveryStepKeepsTheInvariant : Prop :=
  ∀ s t : State, Inv s → step s = .next t → Inv t

/-- R32, R40, R41: while a command stays pending, no step changes the command, an operand, PINF, a
coefficient or QR: the engine completes with the values of the acceptance. -/
def Obligations.PendingOperandsStayFixed : Prop :=
  ∀ s t : State, s.rstN = true → s.busy = true → step s = .next t → t.busy = true →
    t.cmd = s.cmd ∧ t.r = s.r ∧ t.pinf = s.pinf ∧ t.curveA = s.curveA ∧ t.curveB = s.curveB ∧
      t.qr = s.qr ∧ t.wait + 1 = s.wait

/-- R60: an accepted command completes, or a reset comes first, after finitely many steps: at most
its latency and one more, whatever the bus does meanwhile. If no reset came, the last step is its
completion. -/
def Obligations.AcceptedCommandsComplete : Prop :=
  ∀ s : State, s.rstN = true → s.busy = true →
    ∃ n t u, n ≤ s.wait ∧ core.run n s = .next t ∧ step t = .next u ∧
      t.rstN = true ∧ t.busy = true ∧ t.cmd = s.cmd ∧ u.busy = false ∧
      (u.done = true ∧ t.turn = .engine ∨ AtReset u)

/-- R60, R102: no step stops the machine. -/
def Obligations.EveryStepAnswers : Prop := ∀ s : State, Answers (step s)

/-- R118: an idle MFE is quiescent: with no input waiting, a step changes nothing. -/
def Obligations.IdleMachineIsQuiescent : Prop :=
  ∀ s : State, Inv s → s.rstN = true → s.busy = false → s.inputs = [] → step s = .next s
end

