-- ==== Sys2Proof/Laws/Field.lean ====
section
/-! SUPPORT. What the arithmetic operations compute: `modExp` is a power (R73), `intMod` a residue
(R9), and `montInvR` the inverse of 2^256 (R71). -/

namespace Sys2Proof.Machine

/-! ### The moduli -/

theorem two_lt_modulusOf (m : Modulus) : 2 < modulusOf m := by cases m <;> decide +kernel

theorem modulusOf_pos (m : Modulus) : 0 < modulusOf m := by
  have := two_lt_modulusOf m; omega

theorem modulusOf_lt (m : Modulus) : modulusOf m < 2 ^ 256 := by cases m <;> decide +kernel

theorem P_lt : Config.P < 2 ^ 256 := modulusOf_lt .P

theorem P_pos : 0 < Config.P := modulusOf_pos .P

/-- A residue fits a register. -/
theorem toNat_ofNat_of_lt {m v : Nat} (hm : m < 2 ^ 256) (h : v < m) :
    (BitVec.ofNat 256 v).toNat = v := by
  rw [BitVec.toNat_ofNat]; exact Nat.mod_eq_of_lt (h.trans hm)

/-! ### `intMod` -/

theorem intMod_lt {m : Nat} (hm : 0 < m) (z : Int) : intMod z m < m := by
  have h1 := Int.emod_nonneg z (show (m : Int) ≠ 0 by omega)
  have h2 := Int.emod_lt_of_pos z (show (0 : Int) < m by omega)
  unfold intMod; omega

theorem coe_intMod {m : Nat} (hm : 0 < m) (z : Int) : (intMod z m : Int) = z % m := by
  have h1 := Int.emod_nonneg z (show (m : Int) ≠ 0 by omega)
  unfold intMod; omega

theorem intMod_natCast (a m : Nat) : intMod (a : Int) m = a % m := by
  unfold intMod; norm_cast

/-! ### `modExp` -/

theorem modExpLoop_eq {m : Nat} (hm : 1 < m) (a : Nat) :
    ∀ fuel e, e < 2 ^ fuel → modExpLoop m a fuel e = a ^ e % m := by
  intro fuel
  induction fuel with
  | zero =>
    intro e he
    obtain rfl : e = 0 := by simpa using he
    simp [modExpLoop, Nat.mod_eq_of_lt hm]
  | succ fuel ih =>
    intro e he
    by_cases h0 : e = 0
    · subst h0; simp [modExpLoop, Nat.mod_eq_of_lt hm]
    · have hhalf : modExpLoop m a fuel (e / 2) = a ^ (e / 2) % m := ih _ (by
        rw [Nat.pow_succ] at he; omega)
      simp only [modExpLoop, if_neg h0, hhalf]
      have hsq : a ^ (e / 2) % m * (a ^ (e / 2) % m) % m = a ^ (2 * (e / 2)) % m := by
        rw [← Nat.mul_mod, ← pow_add]; congr 2; omega
      rw [hsq]
      split
      · rw [Nat.mod_mul_mod, ← pow_succ]; congr 2; omega
      · congr 2; omega

/-- `ModExp_m(a, e)` is a^e mod m (R73). -/
theorem modExp_eq {m : Nat} (hm : 1 < m) (a e : Nat) : modExp m a e = a ^ e % m :=
  modExpLoop_eq hm a _ e Nat.lt_log2_self

theorem modExp_lt {m : Nat} (hm : 1 < m) (a e : Nat) : modExp m a e < m := by
  rw [modExp_eq hm]; exact Nat.mod_lt _ (by omega)

theorem modInv_eq {m : Nat} (hm : 1 < m) (a : Nat) : modInv m a = a ^ (m - 2) % m :=
  modExp_eq hm a _

/-! ### The Montgomery product -/

theorem montInvR_mul (m : Modulus) : montInvR m * 2 ^ 256 % modulusOf m = 1 := by
  cases m <;> decide +kernel

theorem montInvR_lt (m : Modulus) : montInvR m < modulusOf m := by cases m <;> decide +kernel

theorem montMul_lt (m : Modulus) (a b : Nat) : montMul m a b < modulusOf m :=
  Nat.mod_lt _ (modulusOf_pos m)

end Sys2Proof.Machine
end

