-- ==== Sys2Proof/Laws/Prime.lean ====
section
/-! SUPPORT. P and N are primes (R20, R21, R64), by certificates of Lucas's test: the prime factors of
p - 1, each certified in turn, and a residue of order p - 1. -/

-- One theorem after the other: checked all at once they take more memory than the check allows.
set_option Elab.async false

namespace Sys2Proof.Machine

/-- Lucas's test, its powers computed by `modExp`. -/
theorem prime_of_factors {p a : Nat} {fs : List Nat} (hp : 2 < p) (hfs : fs.prod = p - 1)
    (hprime : ∀ q ∈ fs, q.Prime) (hone : modExp p a (p - 1) = 1)
    (hne : ∀ q ∈ fs, modExp p a ((p - 1) / q) ≠ 1) : p.Prime := by
  have h1 : 1 < p := by omega
  have key : ∀ e, ((a : ZMod p) ^ e = 1) ↔ modExp p a e = 1 := by
    intro e
    rw [modExp_eq h1, ← Nat.cast_pow, ← Nat.cast_one (R := ZMod p), ZMod.natCast_eq_natCast_iff,
      Nat.ModEq, Nat.mod_eq_of_lt h1]
  refine lucas_primality p (a : ZMod p) ((key _).2 hone) fun q hq hdvd => ?_
  rw [Ne, key]
  rw [← hfs] at hdvd
  obtain ⟨f, hf, hqf⟩ := (hq.prime.dvd_prod_iff).1 hdvd
  obtain rfl := (Nat.prime_dvd_prime_iff_eq hq (hprime f hf)).1 hqf
  exact hne q hf

theorem prime_13331831 : Nat.Prime 13331831 := by
  refine prime_of_factors (a := 13)
    (fs := [2, 5, 971, 1373])
    (by decide +kernel) (by decide +kernel) ?_ (by decide +kernel) (by decide +kernel)
  simp only [List.forall_mem_cons]
  exact ⟨by norm_num, by norm_num, by norm_num, by norm_num, by simp⟩

theorem prime_173378833005251801 : Nat.Prime 173378833005251801 := by
  refine prime_of_factors (a := 6)
    (fs := [2, 2, 2, 5, 5, 2621, 24809, 13331831])
    (by decide +kernel) (by decide +kernel) ?_ (by decide +kernel) (by decide +kernel)
  simp only [List.forall_mem_cons]
  exact ⟨by norm_num, by norm_num, by norm_num, by norm_num, by norm_num, by norm_num, by norm_num, prime_13331831, by simp⟩

theorem prime_22149492674086928081353 : Nat.Prime 22149492674086928081353 := by
  refine prime_of_factors (a := 5)
    (fs := [2, 2, 2, 3, 5323, 173378833005251801])
    (by decide +kernel) (by decide +kernel) ?_ (by decide +kernel) (by decide +kernel)
  simp only [List.forall_mem_cons]
  exact ⟨by norm_num, by norm_num, by norm_num, by norm_num, by norm_num, prime_173378833005251801, by simp⟩

theorem prime_132896956044521568488119 : Nat.Prime 132896956044521568488119 := by
  refine prime_of_factors (a := 6)
    (fs := [2, 3, 22149492674086928081353])
    (by decide +kernel) (by decide +kernel) ?_ (by decide +kernel) (by decide +kernel)
  simp only [List.forall_mem_cons]
  exact ⟨by norm_num, by norm_num, prime_22149492674086928081353, by simp⟩

theorem prime_107590001 : Nat.Prime 107590001 := by
  refine prime_of_factors (a := 3)
    (fs := [2, 2, 2, 2, 5, 5, 5, 5, 7, 29, 53])
    (by decide +kernel) (by decide +kernel) ?_ (by decide +kernel) (by decide +kernel)
  simp only [List.forall_mem_cons]
  exact ⟨by norm_num, by norm_num, by norm_num, by norm_num, by norm_num, by norm_num, by norm_num, by norm_num, by norm_num, by norm_num, by norm_num, by simp⟩

theorem prime_255515944373312847190720520512484175977 : Nat.Prime 255515944373312847190720520512484175977 := by
  refine prime_of_factors (a := 3)
    (fs := [2, 2, 2, 7, 7, 11, 1627, 2657, 4423, 41201, 96557, 7240687, 107590001])
    (by decide +kernel) (by decide +kernel) ?_ (by decide +kernel) (by decide +kernel)
  simp only [List.forall_mem_cons]
  exact ⟨by norm_num, by norm_num, by norm_num, by norm_num, by norm_num, by norm_num, by norm_num, by norm_num, by norm_num, by norm_num, by norm_num, by norm_num, prime_107590001, by simp⟩

theorem prime_205115282021455665897114700593932402728804164701536103180137503955397371 : Nat.Prime 205115282021455665897114700593932402728804164701536103180137503955397371 := by
  refine prime_of_factors (a := 10)
    (fs := [2, 3, 5, 29, 29, 31, 7723, 132896956044521568488119, 255515944373312847190720520512484175977])
    (by decide +kernel) (by decide +kernel) ?_ (by decide +kernel) (by decide +kernel)
  simp only [List.forall_mem_cons]
  exact ⟨by norm_num, by norm_num, by norm_num, by norm_num, by norm_num, by norm_num, by norm_num, prime_132896956044521568488119, prime_255515944373312847190720520512484175977, by simp⟩

/-- P is prime (R20). -/
theorem prime_P : Nat.Prime Config.P := by
  refine prime_of_factors (a := 3)
    (fs := [2, 3, 7, 13441, 205115282021455665897114700593932402728804164701536103180137503955397371])
    (by decide +kernel) (by decide +kernel) ?_ (by decide +kernel) (by decide +kernel)
  simp only [List.forall_mem_cons]
  exact ⟨by norm_num, by norm_num, by norm_num, by norm_num, prime_205115282021455665897114700593932402728804164701536103180137503955397371, by simp⟩

theorem prime_107361793816595537 : Nat.Prime 107361793816595537 := by
  refine prime_of_factors (a := 3)
    (fs := [2, 2, 2, 2, 16699, 85831, 4681609])
    (by decide +kernel) (by decide +kernel) ?_ (by decide +kernel) (by decide +kernel)
  simp only [List.forall_mem_cons]
  exact ⟨by norm_num, by norm_num, by norm_num, by norm_num, by norm_num, by norm_num, by norm_num, by simp⟩

theorem prime_44706919 : Nat.Prime 44706919 := by
  refine prime_of_factors (a := 6)
    (fs := [2, 3, 797, 9349])
    (by decide +kernel) (by decide +kernel) ?_ (by decide +kernel) (by decide +kernel)
  simp only [List.forall_mem_cons]
  exact ⟨by norm_num, by norm_num, by norm_num, by norm_num, by simp⟩

theorem prime_174723607534414371449 : Nat.Prime 174723607534414371449 := by
  refine prime_of_factors (a := 3)
    (fs := [2, 2, 2, 17, 59, 4051, 120233, 44706919])
    (by decide +kernel) (by decide +kernel) ?_ (by decide +kernel) (by decide +kernel)
  simp only [List.forall_mem_cons]
  exact ⟨by norm_num, by norm_num, by norm_num, by norm_num, by norm_num, by norm_num, by norm_num, prime_44706919, by simp⟩

theorem prime_545358713 : Nat.Prime 545358713 := by
  refine prime_of_factors (a := 5)
    (fs := [2, 2, 2, 41, 59, 28181])
    (by decide +kernel) (by decide +kernel) ?_ (by decide +kernel) (by decide +kernel)
  simp only [List.forall_mem_cons]
  exact ⟨by norm_num, by norm_num, by norm_num, by norm_num, by norm_num, by norm_num, by simp⟩

theorem prime_297159362677 : Nat.Prime 297159362677 := by
  refine prime_of_factors (a := 2)
    (fs := [2, 2, 3, 3, 11, 461, 1627771])
    (by decide +kernel) (by decide +kernel) ?_ (by decide +kernel) (by decide +kernel)
  simp only [List.forall_mem_cons]
  exact ⟨by norm_num, by norm_num, by norm_num, by norm_num, by norm_num, by norm_num, by norm_num, by simp⟩

theorem prime_29047611873442575647497758179 : Nat.Prime 29047611873442575647497758179 := by
  refine prime_of_factors (a := 2)
    (fs := [2, 293, 305873, 545358713, 297159362677])
    (by decide +kernel) (by decide +kernel) ?_ (by decide +kernel) (by decide +kernel)
  simp only [List.forall_mem_cons]
  exact ⟨by norm_num, by norm_num, by norm_num, prime_545358713, prime_297159362677, by simp⟩

theorem prime_341948486974166000522343609283189 : Nat.Prime 341948486974166000522343609283189 := by
  refine prime_of_factors (a := 2)
    (fs := [2, 2, 3, 3, 3, 109, 29047611873442575647497758179])
    (by decide +kernel) (by decide +kernel) ?_ (by decide +kernel) (by decide +kernel)
  simp only [List.forall_mem_cons]
  exact ⟨by norm_num, by norm_num, by norm_num, by norm_num, by norm_num, by norm_num, prime_29047611873442575647497758179, by simp⟩

/-- N is prime (R21). -/
theorem prime_N : Nat.Prime Config.N := by
  refine prime_of_factors (a := 7)
    (fs := [2, 2, 2, 2, 2, 2, 3, 149, 631, 107361793816595537, 174723607534414371449, 341948486974166000522343609283189])
    (by decide +kernel) (by decide +kernel) ?_ (by decide +kernel) (by decide +kernel)
  simp only [List.forall_mem_cons]
  exact ⟨by norm_num, by norm_num, by norm_num, by norm_num, by norm_num, by norm_num, by norm_num, by norm_num, by norm_num, prime_107361793816595537, prime_174723607534414371449, prime_341948486974166000522343609283189, by simp⟩

theorem prime_modulusOf (m : Modulus) : (modulusOf m).Prime := by
  cases m
  · exact prime_P
  · exact prime_N

end Sys2Proof.Machine
end

