-- ==== Sys2Proof/Laws/Curve.lean ====
section
/-! SUPPORT. The point operations stay in range, and their arithmetic read in the field ZMod P. -/

namespace Sys2Proof.Machine

/-! ### Ranges -/

theorem chordPoint_inRange (s x1 y1 x2 : Nat) : (chordPoint s x1 y1 x2).InRange :=
  ⟨intMod_lt P_pos _, intMod_lt P_pos _⟩

theorem pointAdd_inRange (a : Nat) {p q : Point} (hp : p.InRange) (hq : q.InRange) :
    (pointAdd a p q).InRange := by
  cases p with
  | inf => exact hq
  | affine x1 y1 =>
    cases q with
    | inf => exact hp
    | affine x2 y2 =>
      simp only [pointAdd]
      split
      · split
        · trivial
        · split
          · trivial
          · exact chordPoint_inRange ..
      · exact chordPoint_inRange ..

theorem pointNeg_inRange {q : Point} (h : q.InRange) : (pointNeg q).InRange := by
  cases q with
  | inf => trivial
  | affine x y => exact ⟨h.1, intMod_lt P_pos _⟩

theorem scalarLoop_inRange (a : Nat) (fuel k : Nat) {current result : Point}
    (hc : current.InRange) (hr : result.InRange) :
    (scalarLoop a fuel k current result).InRange := by
  induction fuel generalizing k current result with
  | zero => exact hr
  | succ fuel ih =>
    simp only [scalarLoop]
    split
    · exact hr
    · refine ih _ (pointAdd_inRange a hc hc) ?_
      split
      · exact pointAdd_inRange a hr hc
      · exact hr

theorem scalarMul_inRange (a k : Nat) {q : Point} (h : q.InRange) :
    (scalarMul a k q).InRange :=
  scalarLoop_inRange a _ k h trivial

theorem drawnPoint_inRange (draw : Nat) : (drawnPoint draw).InRange := by
  unfold drawnPoint
  split
  · trivial
  · exact ⟨Nat.mod_lt _ P_pos, Nat.mod_lt _ P_pos⟩

theorem generator_inRange : generator.InRange := by
  unfold generator Point.InRange; decide +kernel

/-! ### Reading in ZMod P -/

theorem cast_intMod (z : Int) : ((intMod z Config.P : Nat) : ZMod Config.P) = (z : ZMod Config.P) := by
  have h : ((intMod z Config.P : Nat) : Int) = z % (Config.P : Int) := coe_intMod P_pos z
  rw [← Int.cast_natCast, h, ZMod.intCast_mod]

/-- Residues below P are equal when they are equal in ZMod P. -/
theorem eq_of_cast_eq {x y : Nat} (hx : x < Config.P) (hy : y < Config.P)
    (h : (x : ZMod Config.P) = y) : x = y := by
  rw [ZMod.natCast_eq_natCast_iff, Nat.ModEq, Nat.mod_eq_of_lt hx, Nat.mod_eq_of_lt hy] at h
  exact h

/-- The inverse by Fermat is the inverse of the field (R12). -/
theorem cast_modInv [Fact Config.P.Prime] (a : Nat) :
    ((modInv Config.P a : Nat) : ZMod Config.P) = (a : ZMod Config.P)⁻¹ := by
  have h1 : 1 < Config.P := prime_P.one_lt
  rw [modInv_eq h1, ZMod.natCast_mod, Nat.cast_pow]
  by_cases h0 : (a : ZMod Config.P) = 0
  · have h2 : Config.P - 2 ≠ 0 := by decide +kernel
    rw [h0, zero_pow h2, inv_zero]
  · have h2 : Config.P - 2 + 1 = Config.P - 1 := by decide +kernel
    refine eq_inv_of_mul_eq_one_left ?_
    rw [← pow_succ, h2]
    exact ZMod.pow_card_sub_one_eq_one h0

/-- The curve equation in ZMod P (R80). -/
theorem onCurve_affine_iff (a b x y : Nat) :
    onCurve a b (.affine x y) = true ↔
      (y : ZMod Config.P) ^ 2 = (x : ZMod Config.P) ^ 3 + a * x + b := by
  simp only [onCurve, beq_iff_eq]
  rw [← sub_eq_zero (b := (x : ZMod Config.P) ^ 3 + a * x + b)]
  have h : ((y : ZMod Config.P) ^ 2 - ((x : ZMod Config.P) ^ 3 + a * x + b)) =
      ((((y : Int) ^ 2 - ((x : Int) ^ 3 + a * x + b) : Int)) : ZMod Config.P) := by push_cast; ring
  rw [h, ← cast_intMod]
  constructor
  · intro e; rw [e]; simp
  · intro e
    exact eq_of_cast_eq (intMod_lt P_pos _) P_pos (by simpa using e)

end Sys2Proof.Machine
end

