-- ==== Sys2Proof/Laws/Decode.lean ====
section
/-! SUPPORT. The fields of a command word: taking a word apart and putting it together again are
inverse, and the opcode map reads back. -/

namespace Sys2Proof

theorem CmdFields.toWord_ofWord (w : Word) : (CmdFields.ofWord w).toWord = w := by
  apply BitVec.eq_of_getLsbD_eq
  intro i hi
  simp only [CmdFields.ofWord, CmdFields.toWord, BitVec.getLsbD_append, BitVec.getLsbD_extractLsb',
    BitVec.getLsbD_ofBool]
  interval_cases i <;> simp

theorem CmdFields.ofWord_toWord (f : CmdFields) : CmdFields.ofWord f.toWord = f := by
  obtain ⟨opc, m, f0, f1, rsvLow, rd, rs1, rs2, rsvHigh⟩ := f
  simp only [CmdFields.ofWord, CmdFields.toWord, CmdFields.mk.injEq]
  refine ⟨?_, ?_, ?_, ?_, ?_, ?_, ?_, ?_, ?_⟩
  all_goals first
    | (apply BitVec.eq_of_getLsbD_eq
       intro i hi
       simp only [BitVec.getLsbD_append, BitVec.getLsbD_extractLsb', BitVec.getLsbD_ofBool]
       interval_cases i <;> simp)
    | (simp only [BitVec.getLsbD_append, BitVec.getLsbD_ofBool]
       simp)

@[simp] theorem Opcode.ofBits_bits (op : Opcode) : Opcode.ofBits op.bits = some op := by
  cases op <;> rfl

theorem Opcode.bits_of_ofBits {b : BitVec 6} {op : Opcode} (h : Opcode.ofBits b = some op) :
    op.bits = b := by
  revert b op; decide

@[simp] theorem Modulus.ofBit_bit (m : Modulus) : Modulus.ofBit m.bit = m := by cases m <;> rfl

@[simp] theorem Modulus.bit_ofBit (b : Bool) : (Modulus.ofBit b).bit = b := by cases b <;> rfl

/-- A point field is one below 8: bit 3 is its most significant bit. -/
theorem isPointField_iff (f : Reg) : isPointField f = true ↔ f.toNat < 8 := by
  revert f; decide

/-- `requiring` answers a command only when every requirement holds, and then that command. -/
theorem requiring_eq_ok {cs : List (Bool × Reject)} {i j : Instr} :
    requiring cs i = .ok j ↔ (∀ c ∈ cs, c.1 = true) ∧ i = j := by
  induction cs with
  | nil => simp [requiring]
  | cons c cs ih =>
    obtain ⟨holds, reason⟩ := c
    cases holds <;> simp [requiring, ih]

end Sys2Proof
end

