-- ==== Sys2Proof/Laws/State.lean ====
section
/-! SUPPORT. The small lemmas of the state's updates: for each shared operation and each field, what
the field holds afterwards, so that no later proof unfolds a record update. -/

namespace Sys2Proof.Machine

/-! ### Operand registers -/

@[simp] theorem State.getR_setR_same (s : State) (i : Reg) (v : Word256) :
    (s.setR i v).getR i = v := by
  simp [State.getR, State.setR]

@[simp] theorem State.getR_setR_ne (s : State) {i j : Reg} (v : Word256) (h : j ≠ i) :
    (s.setR i v).getR j = s.getR j := by
  have : i.toNat ≠ j.toNat := fun e => h (BitVec.eq_of_toNat_eq e.symm)
  simp [State.getR, State.setR, this]

theorem State.getR_setR (s : State) (i j : Reg) (v : Word256) :
    (s.setR i v).getR j = if j = i then v else s.getR j := by
  by_cases h : j = i
  · subst h; simp
  · simp [h]

/-- Two states whose operand registers all agree have the same register file. -/
theorem State.r_ext {s t : State} (h : ∀ i, s.getR i = t.getR i) : s.r = t.r := by
  apply Vector.ext
  intro i hi
  have := h (BitVec.ofNat 4 i)
  simpa [State.getR, Nat.mod_eq_of_lt hi] using this

/-! ### `setR` -/

@[simp] theorem State.setR_cmd (s : State) (i : Reg) (v : Word256) : (s.setR i v).cmd = s.cmd := rfl

@[simp] theorem State.setR_busy (s : State) (i : Reg) (v : Word256) : (s.setR i v).busy = s.busy := rfl

@[simp] theorem State.setR_done (s : State) (i : Reg) (v : Word256) : (s.setR i v).done = s.done := rfl

@[simp] theorem State.setR_err (s : State) (i : Reg) (v : Word256) : (s.setR i v).err = s.err := rfl

@[simp] theorem State.setR_qr (s : State) (i : Reg) (v : Word256) : (s.setR i v).qr = s.qr := rfl

@[simp] theorem State.setR_code (s : State) (i : Reg) (v : Word256) : (s.setR i v).code = s.code := rfl

@[simp] theorem State.setR_doneIE (s : State) (i : Reg) (v : Word256) : (s.setR i v).doneIE = s.doneIE := rfl

@[simp] theorem State.setR_errIE (s : State) (i : Reg) (v : Word256) : (s.setR i v).errIE = s.errIE := rfl

@[simp] theorem State.setR_pinf (s : State) (i : Reg) (v : Word256) : (s.setR i v).pinf = s.pinf := rfl

@[simp] theorem State.setR_curveA (s : State) (i : Reg) (v : Word256) : (s.setR i v).curveA = s.curveA := rfl

@[simp] theorem State.setR_curveB (s : State) (i : Reg) (v : Word256) : (s.setR i v).curveB = s.curveB := rfl

@[simp] theorem State.setR_wait (s : State) (i : Reg) (v : Word256) : (s.setR i v).wait = s.wait := rfl

@[simp] theorem State.setR_rstN (s : State) (i : Reg) (v : Word256) : (s.setR i v).rstN = s.rstN := rfl

@[simp] theorem State.setR_basePage (s : State) (i : Reg) (v : Word256) : (s.setR i v).basePage = s.basePage := rfl

@[simp] theorem State.setR_inputs (s : State) (i : Reg) (v : Word256) : (s.setR i v).inputs = s.inputs := rfl

@[simp] theorem State.setR_reply (s : State) (i : Reg) (v : Word256) : (s.setR i v).reply = s.reply := rfl

@[simp] theorem State.setR_draws (s : State) (i : Reg) (v : Word256) : (s.setR i v).draws = s.draws := rfl

/-! ### `writeStatus` -/

@[simp] theorem State.writeStatus_cmd (s : State) (v : Word) : (s.writeStatus v).cmd = s.cmd := rfl

@[simp] theorem State.writeStatus_busy (s : State) (v : Word) : (s.writeStatus v).busy = s.busy := rfl

@[simp] theorem State.writeStatus_done (s : State) (v : Word) : (s.writeStatus v).done = (s.done && !v.getLsbD 1) := rfl

@[simp] theorem State.writeStatus_err (s : State) (v : Word) : (s.writeStatus v).err = (s.err && !v.getLsbD 2) := rfl

@[simp] theorem State.writeStatus_qr (s : State) (v : Word) : (s.writeStatus v).qr = s.qr := rfl

@[simp] theorem State.writeStatus_code (s : State) (v : Word) : (s.writeStatus v).code = (if v.getLsbD 2 then 0 else s.code) := rfl

@[simp] theorem State.writeStatus_doneIE (s : State) (v : Word) : (s.writeStatus v).doneIE = s.doneIE := rfl

@[simp] theorem State.writeStatus_errIE (s : State) (v : Word) : (s.writeStatus v).errIE = s.errIE := rfl

@[simp] theorem State.writeStatus_pinf (s : State) (v : Word) : (s.writeStatus v).pinf = s.pinf := rfl

@[simp] theorem State.writeStatus_curveA (s : State) (v : Word) : (s.writeStatus v).curveA = s.curveA := rfl

@[simp] theorem State.writeStatus_curveB (s : State) (v : Word) : (s.writeStatus v).curveB = s.curveB := rfl

@[simp] theorem State.writeStatus_r (s : State) (v : Word) : (s.writeStatus v).r = s.r := rfl

@[simp] theorem State.writeStatus_wait (s : State) (v : Word) : (s.writeStatus v).wait = s.wait := rfl

@[simp] theorem State.writeStatus_rstN (s : State) (v : Word) : (s.writeStatus v).rstN = s.rstN := rfl

@[simp] theorem State.writeStatus_basePage (s : State) (v : Word) : (s.writeStatus v).basePage = s.basePage := rfl

@[simp] theorem State.writeStatus_inputs (s : State) (v : Word) : (s.writeStatus v).inputs = s.inputs := rfl

@[simp] theorem State.writeStatus_reply (s : State) (v : Word) : (s.writeStatus v).reply = s.reply := rfl

@[simp] theorem State.writeStatus_draws (s : State) (v : Word) : (s.writeStatus v).draws = s.draws := rfl

/-! ### `writeIE` -/

@[simp] theorem State.writeIE_cmd (s : State) (v : Word) : (s.writeIE v).cmd = s.cmd := rfl

@[simp] theorem State.writeIE_busy (s : State) (v : Word) : (s.writeIE v).busy = s.busy := rfl

@[simp] theorem State.writeIE_done (s : State) (v : Word) : (s.writeIE v).done = s.done := rfl

@[simp] theorem State.writeIE_err (s : State) (v : Word) : (s.writeIE v).err = s.err := rfl

@[simp] theorem State.writeIE_qr (s : State) (v : Word) : (s.writeIE v).qr = s.qr := rfl

@[simp] theorem State.writeIE_code (s : State) (v : Word) : (s.writeIE v).code = s.code := rfl

@[simp] theorem State.writeIE_doneIE (s : State) (v : Word) : (s.writeIE v).doneIE = v.getLsbD 0 := rfl

@[simp] theorem State.writeIE_errIE (s : State) (v : Word) : (s.writeIE v).errIE = v.getLsbD 1 := rfl

@[simp] theorem State.writeIE_pinf (s : State) (v : Word) : (s.writeIE v).pinf = s.pinf := rfl

@[simp] theorem State.writeIE_curveA (s : State) (v : Word) : (s.writeIE v).curveA = s.curveA := rfl

@[simp] theorem State.writeIE_curveB (s : State) (v : Word) : (s.writeIE v).curveB = s.curveB := rfl

@[simp] theorem State.writeIE_r (s : State) (v : Word) : (s.writeIE v).r = s.r := rfl

@[simp] theorem State.writeIE_wait (s : State) (v : Word) : (s.writeIE v).wait = s.wait := rfl

@[simp] theorem State.writeIE_rstN (s : State) (v : Word) : (s.writeIE v).rstN = s.rstN := rfl

@[simp] theorem State.writeIE_basePage (s : State) (v : Word) : (s.writeIE v).basePage = s.basePage := rfl

@[simp] theorem State.writeIE_inputs (s : State) (v : Word) : (s.writeIE v).inputs = s.inputs := rfl

@[simp] theorem State.writeIE_reply (s : State) (v : Word) : (s.writeIE v).reply = s.reply := rfl

@[simp] theorem State.writeIE_draws (s : State) (v : Word) : (s.writeIE v).draws = s.draws := rfl

/-! ### `raiseError` -/

@[simp] theorem State.raiseError_cmd (s : State) (e : ErrorCode) : (s.raiseError e).cmd = s.cmd := rfl

@[simp] theorem State.raiseError_busy (s : State) (e : ErrorCode) : (s.raiseError e).busy = s.busy := rfl

@[simp] theorem State.raiseError_done (s : State) (e : ErrorCode) : (s.raiseError e).done = s.done := rfl

@[simp] theorem State.raiseError_err (s : State) (e : ErrorCode) : (s.raiseError e).err = true := rfl

@[simp] theorem State.raiseError_qr (s : State) (e : ErrorCode) : (s.raiseError e).qr = s.qr := rfl

@[simp] theorem State.raiseError_code (s : State) (e : ErrorCode) : (s.raiseError e).code = (if s.err then s.code else e.toCode) := rfl

@[simp] theorem State.raiseError_doneIE (s : State) (e : ErrorCode) : (s.raiseError e).doneIE = s.doneIE := rfl

@[simp] theorem State.raiseError_errIE (s : State) (e : ErrorCode) : (s.raiseError e).errIE = s.errIE := rfl

@[simp] theorem State.raiseError_pinf (s : State) (e : ErrorCode) : (s.raiseError e).pinf = s.pinf := rfl

@[simp] theorem State.raiseError_curveA (s : State) (e : ErrorCode) : (s.raiseError e).curveA = s.curveA := rfl

@[simp] theorem State.raiseError_curveB (s : State) (e : ErrorCode) : (s.raiseError e).curveB = s.curveB := rfl

@[simp] theorem State.raiseError_r (s : State) (e : ErrorCode) : (s.raiseError e).r = s.r := rfl

@[simp] theorem State.raiseError_wait (s : State) (e : ErrorCode) : (s.raiseError e).wait = s.wait := rfl

@[simp] theorem State.raiseError_rstN (s : State) (e : ErrorCode) : (s.raiseError e).rstN = s.rstN := rfl

@[simp] theorem State.raiseError_basePage (s : State) (e : ErrorCode) : (s.raiseError e).basePage = s.basePage := rfl

@[simp] theorem State.raiseError_inputs (s : State) (e : ErrorCode) : (s.raiseError e).inputs = s.inputs := rfl

@[simp] theorem State.raiseError_reply (s : State) (e : ErrorCode) : (s.raiseError e).reply = s.reply := rfl

@[simp] theorem State.raiseError_draws (s : State) (e : ErrorCode) : (s.raiseError e).draws = s.draws := rfl

/-! ### `issue` -/

@[simp] theorem State.issue_cmd (s : State) (v : Word) : (s.issue v).cmd = v := rfl

@[simp] theorem State.issue_busy (s : State) (v : Word) : (s.issue v).busy = true := rfl

@[simp] theorem State.issue_done (s : State) (v : Word) : (s.issue v).done = false := rfl

@[simp] theorem State.issue_err (s : State) (v : Word) : (s.issue v).err = s.err := rfl

@[simp] theorem State.issue_qr (s : State) (v : Word) : (s.issue v).qr = s.qr := rfl

@[simp] theorem State.issue_code (s : State) (v : Word) : (s.issue v).code = s.code := rfl

@[simp] theorem State.issue_doneIE (s : State) (v : Word) : (s.issue v).doneIE = s.doneIE := rfl

@[simp] theorem State.issue_errIE (s : State) (v : Word) : (s.issue v).errIE = s.errIE := rfl

@[simp] theorem State.issue_pinf (s : State) (v : Word) : (s.issue v).pinf = s.pinf := rfl

@[simp] theorem State.issue_curveA (s : State) (v : Word) : (s.issue v).curveA = s.curveA := rfl

@[simp] theorem State.issue_curveB (s : State) (v : Word) : (s.issue v).curveB = s.curveB := rfl

@[simp] theorem State.issue_r (s : State) (v : Word) : (s.issue v).r = s.r := rfl

@[simp] theorem State.issue_wait (s : State) (v : Word) : (s.issue v).wait = Config.latency v s.draws := rfl

@[simp] theorem State.issue_rstN (s : State) (v : Word) : (s.issue v).rstN = s.rstN := rfl

@[simp] theorem State.issue_basePage (s : State) (v : Word) : (s.issue v).basePage = s.basePage := rfl

@[simp] theorem State.issue_inputs (s : State) (v : Word) : (s.issue v).inputs = s.inputs := rfl

@[simp] theorem State.issue_reply (s : State) (v : Word) : (s.issue v).reply = s.reply := rfl

@[simp] theorem State.issue_draws (s : State) (v : Word) : (s.issue v).draws = s.draws + 1 := rfl

/-! ### `resetRegisters` -/

@[simp] theorem State.resetRegisters_cmd (s : State) : (s.resetRegisters).cmd = State.reset.cmd := rfl

@[simp] theorem State.resetRegisters_busy (s : State) : (s.resetRegisters).busy = State.reset.busy := rfl

@[simp] theorem State.resetRegisters_done (s : State) : (s.resetRegisters).done = State.reset.done := rfl

@[simp] theorem State.resetRegisters_err (s : State) : (s.resetRegisters).err = State.reset.err := rfl

@[simp] theorem State.resetRegisters_qr (s : State) : (s.resetRegisters).qr = State.reset.qr := rfl

@[simp] theorem State.resetRegisters_code (s : State) : (s.resetRegisters).code = State.reset.code := rfl

@[simp] theorem State.resetRegisters_doneIE (s : State) : (s.resetRegisters).doneIE = State.reset.doneIE := rfl

@[simp] theorem State.resetRegisters_errIE (s : State) : (s.resetRegisters).errIE = State.reset.errIE := rfl

@[simp] theorem State.resetRegisters_pinf (s : State) : (s.resetRegisters).pinf = State.reset.pinf := rfl

@[simp] theorem State.resetRegisters_curveA (s : State) : (s.resetRegisters).curveA = State.reset.curveA := rfl

@[simp] theorem State.resetRegisters_curveB (s : State) : (s.resetRegisters).curveB = State.reset.curveB := rfl

@[simp] theorem State.resetRegisters_r (s : State) : (s.resetRegisters).r = State.reset.r := rfl

@[simp] theorem State.resetRegisters_wait (s : State) : (s.resetRegisters).wait = State.reset.wait := rfl

@[simp] theorem State.resetRegisters_rstN (s : State) : (s.resetRegisters).rstN = s.rstN := rfl

@[simp] theorem State.resetRegisters_basePage (s : State) : (s.resetRegisters).basePage = s.basePage := rfl

@[simp] theorem State.resetRegisters_inputs (s : State) : (s.resetRegisters).inputs = s.inputs := rfl

@[simp] theorem State.resetRegisters_reply (s : State) : (s.resetRegisters).reply = s.reply := rfl

@[simp] theorem State.resetRegisters_draws (s : State) : (s.resetRegisters).draws = s.draws := rfl

/-! ### `ptWrite`, `applyWrite` and `commit`: only R, PINF and QR can change -/

@[simp] theorem State.ptWrite_cmd (s : State) (k : PointReg) (q : Point) :
    (s.ptWrite k q).cmd = s.cmd := by cases q <;> rfl

@[simp] theorem State.ptWrite_busy (s : State) (k : PointReg) (q : Point) :
    (s.ptWrite k q).busy = s.busy := by cases q <;> rfl

@[simp] theorem State.ptWrite_done (s : State) (k : PointReg) (q : Point) :
    (s.ptWrite k q).done = s.done := by cases q <;> rfl

@[simp] theorem State.ptWrite_err (s : State) (k : PointReg) (q : Point) :
    (s.ptWrite k q).err = s.err := by cases q <;> rfl

@[simp] theorem State.ptWrite_qr (s : State) (k : PointReg) (q : Point) :
    (s.ptWrite k q).qr = s.qr := by cases q <;> rfl

@[simp] theorem State.ptWrite_code (s : State) (k : PointReg) (q : Point) :
    (s.ptWrite k q).code = s.code := by cases q <;> rfl

@[simp] theorem State.ptWrite_doneIE (s : State) (k : PointReg) (q : Point) :
    (s.ptWrite k q).doneIE = s.doneIE := by cases q <;> rfl

@[simp] theorem State.ptWrite_errIE (s : State) (k : PointReg) (q : Point) :
    (s.ptWrite k q).errIE = s.errIE := by cases q <;> rfl

@[simp] theorem State.ptWrite_curveA (s : State) (k : PointReg) (q : Point) :
    (s.ptWrite k q).curveA = s.curveA := by cases q <;> rfl

@[simp] theorem State.ptWrite_curveB (s : State) (k : PointReg) (q : Point) :
    (s.ptWrite k q).curveB = s.curveB := by cases q <;> rfl

@[simp] theorem State.ptWrite_wait (s : State) (k : PointReg) (q : Point) :
    (s.ptWrite k q).wait = s.wait := by cases q <;> rfl

@[simp] theorem State.ptWrite_rstN (s : State) (k : PointReg) (q : Point) :
    (s.ptWrite k q).rstN = s.rstN := by cases q <;> rfl

@[simp] theorem State.ptWrite_basePage (s : State) (k : PointReg) (q : Point) :
    (s.ptWrite k q).basePage = s.basePage := by cases q <;> rfl

@[simp] theorem State.ptWrite_inputs (s : State) (k : PointReg) (q : Point) :
    (s.ptWrite k q).inputs = s.inputs := by cases q <;> rfl

@[simp] theorem State.ptWrite_reply (s : State) (k : PointReg) (q : Point) :
    (s.ptWrite k q).reply = s.reply := by cases q <;> rfl

@[simp] theorem State.ptWrite_draws (s : State) (k : PointReg) (q : Point) :
    (s.ptWrite k q).draws = s.draws := by cases q <;> rfl

@[simp] theorem State.applyWrite_cmd (s : State) (x : Write) :
    (s.applyWrite x).cmd = s.cmd := by cases x <;> simp [State.applyWrite]

@[simp] theorem State.applyWrite_busy (s : State) (x : Write) :
    (s.applyWrite x).busy = s.busy := by cases x <;> simp [State.applyWrite]

@[simp] theorem State.applyWrite_done (s : State) (x : Write) :
    (s.applyWrite x).done = s.done := by cases x <;> simp [State.applyWrite]

@[simp] theorem State.applyWrite_err (s : State) (x : Write) :
    (s.applyWrite x).err = s.err := by cases x <;> simp [State.applyWrite]

@[simp] theorem State.applyWrite_code (s : State) (x : Write) :
    (s.applyWrite x).code = s.code := by cases x <;> simp [State.applyWrite]

@[simp] theorem State.applyWrite_doneIE (s : State) (x : Write) :
    (s.applyWrite x).doneIE = s.doneIE := by cases x <;> simp [State.applyWrite]

@[simp] theorem State.applyWrite_errIE (s : State) (x : Write) :
    (s.applyWrite x).errIE = s.errIE := by cases x <;> simp [State.applyWrite]

@[simp] theorem State.applyWrite_curveA (s : State) (x : Write) :
    (s.applyWrite x).curveA = s.curveA := by cases x <;> simp [State.applyWrite]

@[simp] theorem State.applyWrite_curveB (s : State) (x : Write) :
    (s.applyWrite x).curveB = s.curveB := by cases x <;> simp [State.applyWrite]

@[simp] theorem State.applyWrite_wait (s : State) (x : Write) :
    (s.applyWrite x).wait = s.wait := by cases x <;> simp [State.applyWrite]

@[simp] theorem State.applyWrite_rstN (s : State) (x : Write) :
    (s.applyWrite x).rstN = s.rstN := by cases x <;> simp [State.applyWrite]

@[simp] theorem State.applyWrite_basePage (s : State) (x : Write) :
    (s.applyWrite x).basePage = s.basePage := by cases x <;> simp [State.applyWrite]

@[simp] theorem State.applyWrite_inputs (s : State) (x : Write) :
    (s.applyWrite x).inputs = s.inputs := by cases x <;> simp [State.applyWrite]

@[simp] theorem State.applyWrite_reply (s : State) (x : Write) :
    (s.applyWrite x).reply = s.reply := by cases x <;> simp [State.applyWrite]

@[simp] theorem State.applyWrite_draws (s : State) (x : Write) :
    (s.applyWrite x).draws = s.draws := by cases x <;> simp [State.applyWrite]

@[simp] theorem State.commit_cmd (s : State) (ws : List Write) :
    (s.commit ws).cmd = s.cmd := by
  induction ws generalizing s with
  | nil => rfl
  | cons x xs ih => exact (ih (s.applyWrite x)).trans (by simp)

@[simp] theorem State.commit_busy (s : State) (ws : List Write) :
    (s.commit ws).busy = s.busy := by
  induction ws generalizing s with
  | nil => rfl
  | cons x xs ih => exact (ih (s.applyWrite x)).trans (by simp)

@[simp] theorem State.commit_done (s : State) (ws : List Write) :
    (s.commit ws).done = s.done := by
  induction ws generalizing s with
  | nil => rfl
  | cons x xs ih => exact (ih (s.applyWrite x)).trans (by simp)

@[simp] theorem State.commit_err (s : State) (ws : List Write) :
    (s.commit ws).err = s.err := by
  induction ws generalizing s with
  | nil => rfl
  | cons x xs ih => exact (ih (s.applyWrite x)).trans (by simp)

@[simp] theorem State.commit_code (s : State) (ws : List Write) :
    (s.commit ws).code = s.code := by
  induction ws generalizing s with
  | nil => rfl
  | cons x xs ih => exact (ih (s.applyWrite x)).trans (by simp)

@[simp] theorem State.commit_doneIE (s : State) (ws : List Write) :
    (s.commit ws).doneIE = s.doneIE := by
  induction ws generalizing s with
  | nil => rfl
  | cons x xs ih => exact (ih (s.applyWrite x)).trans (by simp)

@[simp] theorem State.commit_errIE (s : State) (ws : List Write) :
    (s.commit ws).errIE = s.errIE := by
  induction ws generalizing s with
  | nil => rfl
  | cons x xs ih => exact (ih (s.applyWrite x)).trans (by simp)

@[simp] theorem State.commit_curveA (s : State) (ws : List Write) :
    (s.commit ws).curveA = s.curveA := by
  induction ws generalizing s with
  | nil => rfl
  | cons x xs ih => exact (ih (s.applyWrite x)).trans (by simp)

@[simp] theorem State.commit_curveB (s : State) (ws : List Write) :
    (s.commit ws).curveB = s.curveB := by
  induction ws generalizing s with
  | nil => rfl
  | cons x xs ih => exact (ih (s.applyWrite x)).trans (by simp)

@[simp] theorem State.commit_wait (s : State) (ws : List Write) :
    (s.commit ws).wait = s.wait := by
  induction ws generalizing s with
  | nil => rfl
  | cons x xs ih => exact (ih (s.applyWrite x)).trans (by simp)

@[simp] theorem State.commit_rstN (s : State) (ws : List Write) :
    (s.commit ws).rstN = s.rstN := by
  induction ws generalizing s with
  | nil => rfl
  | cons x xs ih => exact (ih (s.applyWrite x)).trans (by simp)

@[simp] theorem State.commit_basePage (s : State) (ws : List Write) :
    (s.commit ws).basePage = s.basePage := by
  induction ws generalizing s with
  | nil => rfl
  | cons x xs ih => exact (ih (s.applyWrite x)).trans (by simp)

@[simp] theorem State.commit_inputs (s : State) (ws : List Write) :
    (s.commit ws).inputs = s.inputs := by
  induction ws generalizing s with
  | nil => rfl
  | cons x xs ih => exact (ih (s.applyWrite x)).trans (by simp)

@[simp] theorem State.commit_reply (s : State) (ws : List Write) :
    (s.commit ws).reply = s.reply := by
  induction ws generalizing s with
  | nil => rfl
  | cons x xs ih => exact (ih (s.applyWrite x)).trans (by simp)

@[simp] theorem State.commit_draws (s : State) (ws : List Write) :
    (s.commit ws).draws = s.draws := by
  induction ws generalizing s with
  | nil => rfl
  | cons x xs ih => exact (ih (s.applyWrite x)).trans (by simp)

@[simp] theorem State.commit_nil (s : State) : s.commit [] = s := rfl

@[simp] theorem State.commit_cons (s : State) (x : Write) (xs : List Write) :
    s.commit (x :: xs) = (s.applyWrite x).commit xs := rfl

/-! ### `complete` -/

@[simp] theorem State.complete_cmd (s : State) (c : CommandResult) :
    (s.complete c).cmd = s.cmd := by cases c <;> simp [State.complete]

@[simp] theorem State.complete_busy (s : State) (c : CommandResult) :
    (s.complete c).busy = false := rfl

@[simp] theorem State.complete_done (s : State) (c : CommandResult) :
    (s.complete c).done = true := rfl

@[simp] theorem State.complete_doneIE (s : State) (c : CommandResult) :
    (s.complete c).doneIE = s.doneIE := by cases c <;> simp [State.complete]

@[simp] theorem State.complete_errIE (s : State) (c : CommandResult) :
    (s.complete c).errIE = s.errIE := by cases c <;> simp [State.complete]

@[simp] theorem State.complete_curveA (s : State) (c : CommandResult) :
    (s.complete c).curveA = s.curveA := by cases c <;> simp [State.complete]

@[simp] theorem State.complete_curveB (s : State) (c : CommandResult) :
    (s.complete c).curveB = s.curveB := by cases c <;> simp [State.complete]

@[simp] theorem State.complete_wait (s : State) (c : CommandResult) :
    (s.complete c).wait = s.wait := by cases c <;> simp [State.complete]

@[simp] theorem State.complete_rstN (s : State) (c : CommandResult) :
    (s.complete c).rstN = s.rstN := by cases c <;> simp [State.complete]

@[simp] theorem State.complete_basePage (s : State) (c : CommandResult) :
    (s.complete c).basePage = s.basePage := by cases c <;> simp [State.complete]

@[simp] theorem State.complete_inputs (s : State) (c : CommandResult) :
    (s.complete c).inputs = s.inputs := by cases c <;> simp [State.complete]

@[simp] theorem State.complete_reply (s : State) (c : CommandResult) :
    (s.complete c).reply = s.reply := by cases c <;> simp [State.complete]

@[simp] theorem State.complete_draws (s : State) (c : CommandResult) :
    (s.complete c).draws = s.draws + 1 := rfl

@[simp] theorem State.complete_ok_r (s : State) (ws : List Write) :
    (s.complete (.ok ws)).r = (s.commit ws).r := rfl

@[simp] theorem State.complete_error_r (s : State) (e : ErrorCode) :
    (s.complete (.error e)).r = s.r := rfl

@[simp] theorem State.complete_ok_pinf (s : State) (ws : List Write) :
    (s.complete (.ok ws)).pinf = (s.commit ws).pinf := rfl

@[simp] theorem State.complete_error_pinf (s : State) (e : ErrorCode) :
    (s.complete (.error e)).pinf = s.pinf := rfl

@[simp] theorem State.complete_ok_qr (s : State) (ws : List Write) :
    (s.complete (.ok ws)).qr = (s.commit ws).qr := rfl

@[simp] theorem State.complete_error_qr (s : State) (e : ErrorCode) :
    (s.complete (.error e)).qr = s.qr := rfl

@[simp] theorem State.complete_ok_err (s : State) (ws : List Write) :
    (s.complete (.ok ws)).err = s.err := by simp [State.complete]

@[simp] theorem State.complete_ok_code (s : State) (ws : List Write) :
    (s.complete (.ok ws)).code = s.code := by simp [State.complete]

@[simp] theorem State.complete_error_err (s : State) (e : ErrorCode) :
    (s.complete (.error e)).err = true := rfl

@[simp] theorem State.complete_error_code (s : State) (e : ErrorCode) :
    (s.complete (.error e)).code = if s.err then s.code else e.toCode := rfl

@[simp] theorem State.complete_error_getR (s : State) (e : ErrorCode) (i : Reg) :
    (s.complete (.error e)).getR i = s.getR i := rfl

@[simp] theorem State.complete_ok_getR (s : State) (ws : List Write) (i : Reg) :
    (s.complete (.ok ws)).getR i = (s.commit ws).getR i := rfl

end Sys2Proof.Machine
end

