-- ==== Sys2Proof/Laws/Operands.lean ====
section
/-! SUPPORT. Reading operands and writing points: the checks say exactly when they fail, and
`PtWrite` is read back by `Pt`. -/

namespace Sys2Proof.Machine

/-! ### The checks -/

theorem State.element_ok {s : State} {m : Modulus} {i : Reg} (h : s.nat i < modulusOf m) :
    s.element m i = .ok (s.nat i) := by
  simp [State.element, Nat.not_le.2 h]

theorem State.element_error {s : State} {m : Modulus} {i : Reg} (h : modulusOf m ≤ s.nat i) :
    s.element m i = .error .outOfRange := by
  simp [State.element, h]

theorem checkDivisor_ok {v : Nat} (h : v ≠ 0) : checkDivisor v = .ok () := by
  simp [checkDivisor, h]

theorem State.checkCoefficients_ok {s : State} (h : CoefficientsInRange s) :
    s.checkCoefficients = .ok () := by
  have := h.1; have := h.2
  simp only [State.checkCoefficients]
  rw [if_neg (by omega)]

theorem State.checkCoefficients_error {s : State} (h : ¬ CoefficientsInRange s) :
    s.checkCoefficients = .error .outOfRange := by
  simp only [CoefficientsInRange] at h
  simp only [State.checkCoefficients]
  rw [if_pos (by omega)]

theorem pointOutOfRange_iff (q : Point) : pointOutOfRange q = true ↔ ¬ q.InRange := by
  cases q <;> simp [pointOutOfRange, Point.InRange, Classical.or_iff_not_imp_left]

theorem checkPoint_ok {q : Point} (h : q.InRange) : checkPoint q = .ok () := by
  have : pointOutOfRange q ≠ true := by simpa [pointOutOfRange_iff] using h
  simp [checkPoint, this]

theorem checkPoint_error {q : Point} (h : ¬ q.InRange) : checkPoint q = .error .outOfRange := by
  simp [checkPoint, (pointOutOfRange_iff q).2 h]

theorem State.checkCurve_ok {s : State} {q : Point}
    (h : onCurve s.curveA.toNat s.curveB.toNat q = true) : s.checkCurve q = .ok () := by
  simp [State.checkCurve, h]

/-- A source that is valid passes all the checks of a command with one source point. -/
theorem State.checkSource_ok {s : State} {q : Point} (hc : CoefficientsInRange s)
    (hq : ValidSource s q) : s.checkSource q = .ok () := by
  simp [State.checkSource, State.checkCoefficients_ok hc, checkPoint_ok hq.inRange,
    State.checkCurve_ok hq.onCurve, bind, Except.bind]

theorem State.checkSources_ok {s : State} {p q : Point} (hc : CoefficientsInRange s)
    (hp : ValidSource s p) (hq : ValidSource s q) : s.checkSources p q = .ok () := by
  simp [State.checkSources, State.checkCoefficients_ok hc, checkPoint_ok hp.inRange,
    checkPoint_ok hq.inRange, State.checkCurve_ok hp.onCurve, State.checkCurve_ok hq.onCurve,
    bind, Except.bind]

/-! ### Point registers -/

theorem xReg_toNat (k : PointReg) : (xReg k).toNat = 2 * k.toNat := by revert k; decide

theorem yReg_toNat (k : PointReg) : (yReg k).toNat = 2 * k.toNat + 1 := by revert k; decide

theorem xReg_ne_yReg (k j : PointReg) : xReg k ≠ yReg j := by revert k j; decide

theorem xReg_injective {k j : PointReg} (h : xReg k = xReg j) : k = j := by
  revert k j; decide

theorem yReg_injective {k j : PointReg} (h : yReg k = yReg j) : k = j := by
  revert k j; decide

theorem setFlag_self (pinf : BitVec 8) (k : PointReg) (b : Bool) :
    (setFlag pinf k b).getLsbD k.toNat = b := by
  have hk := k.isLt
  cases b <;> simp [setFlag]; omega

theorem setFlag_ne (pinf : BitVec 8) {k j : PointReg} (b : Bool) (h : j ≠ k) :
    (setFlag pinf k b).getLsbD j.toNat = pinf.getLsbD j.toNat := by
  have hj := j.isLt
  have hne : j.toNat ≠ k.toNat := fun e => h (BitVec.eq_of_toNat_eq e)
  cases b <;> simp [setFlag] <;> omega

/-- What `PtWrite` leaves in the two coordinate registers and in every other one (R82). -/
theorem State.ptWrite_getR (s : State) (k : PointReg) (q : Point) (i : Reg) :
    (s.ptWrite k q).getR i =
      if i = yReg k then (match q with | .inf => 0 | .affine _ y => BitVec.ofNat 256 y)
      else if i = xReg k then (match q with | .inf => 0 | .affine x _ => BitVec.ofNat 256 x)
      else s.getR i := by
  cases q with
  | inf =>
    change ((s.setR (xReg k) 0).setR (yReg k) 0).getR i = _
    simp only [State.getR_setR]
  | affine x y =>
    change ((s.setR (xReg k) _).setR (yReg k) _).getR i = _
    simp only [State.getR_setR]

theorem State.ptWrite_pinf (s : State) (k : PointReg) (q : Point) :
    (s.ptWrite k q).pinf = setFlag s.pinf k (decide (q = .inf)) := by
  cases q <;> simp [State.ptWrite]

/-- `Pt` reads back what `PtWrite` wrote, for a point whose coordinates fit their registers. -/
theorem State.pt_ptWrite (s : State) (k : PointReg) {q : Point} (h : q.InRange) :
    (s.ptWrite k q).pt k = q := by
  have hP := P_lt
  cases q with
  | inf => simp [State.pt, State.isInf, State.ptWrite_pinf, setFlag_self]
  | affine x y =>
    have hx : x % 2 ^ 256 = x := Nat.mod_eq_of_lt (h.1.trans hP)
    have hy : y % 2 ^ 256 = y := Nat.mod_eq_of_lt (h.2.trans hP)
    simp only [State.pt, State.isInf, State.ptWrite_pinf, setFlag_self, State.nat,
      State.ptWrite_getR, if_neg (xReg_ne_yReg k k), if_true, BitVec.toNat_ofNat, hx, hy]
    simp

end Sys2Proof.Machine
end

