-- ==== Sys2Proof/Laws/PerInstr.lean ====
section
/-! SUPPORT. Facts about commands as terms, one lemma for each constructor. -/

namespace Sys2Proof.Laws.EncodesLegal

/-- The fields written for a command pass `Legal` exactly if its point fields are point fields. -/
def Statement (i : Instr) : Prop := (encodeFields i).legal = i.wellFormed

theorem madd (m : Modulus) (rd rs1 rs2 : Reg) : Statement (.madd m rd rs1 rs2) := by
  cases m <;> rfl

theorem msub (m : Modulus) (rd rs1 rs2 : Reg) : Statement (.msub m rd rs1 rs2) := by
  cases m <;> rfl

theorem mmul (m : Modulus) (rd rs1 rs2 : Reg) : Statement (.mmul m rd rs1 rs2) := by
  cases m <;> rfl

theorem mont (m : Modulus) (rd rs1 rs2 : Reg) : Statement (.mont m rd rs1 rs2) := by
  cases m <;> rfl

theorem mred (m : Modulus) (rd rs1 : Reg) : Statement (.mred m rd rs1) := by
  cases m <;> rfl

theorem mpow (m : Modulus) (signed : Bool) (rd rs1 rs2 : Reg) :
    Statement (.mpow m signed rd rs1 rs2) := by
  cases m <;> cases signed <;> rfl

theorem minv (m : Modulus) (rd rs1 : Reg) : Statement (.minv m rd rs1) := by
  cases m <;> rfl

theorem mdiv (m : Modulus) (rd rs1 rs2 : Reg) : Statement (.mdiv m rd rs1 rs2) := by
  cases m <;> rfl

theorem msqrt (rd rs1 : Reg) : Statement (.msqrt rd rs1) := rfl

theorem padd (pd ps1 ps2 : Reg) : Statement (.padd pd ps1 ps2) := by
  simp [Statement, CmdFields.legal, encodeFields, encodeFields.field, Opcode.bits, Opcode.ofBits,
    Instr.wellFormed, isPointField, Modulus.bit]
  cases pd.msb <;> cases ps1.msb <;> cases ps2.msb <;> rfl

theorem pdbl (pd ps1 : Reg) : Statement (.pdbl pd ps1) := by
  simp [Statement, CmdFields.legal, encodeFields, encodeFields.field, Opcode.bits, Opcode.ofBits,
    Instr.wellFormed, isPointField, Modulus.bit]

theorem pneg (pd ps1 : Reg) : Statement (.pneg pd ps1) := by
  simp [Statement, CmdFields.legal, encodeFields, encodeFields.field, Opcode.bits, Opcode.ofBits,
    Instr.wellFormed, isPointField, Modulus.bit]

theorem pchk (ps1 : Reg) : Statement (.pchk ps1) := by
  simp [Statement, CmdFields.legal, encodeFields, encodeFields.field, Opcode.bits, Opcode.ofBits,
    Instr.wellFormed, isPointField, Modulus.bit]

theorem pmul (rn : Bool) (pd ps1 rk : Reg) : Statement (.pmul rn pd ps1 rk) := by
  simp [Statement, CmdFields.legal, encodeFields, encodeFields.field, Opcode.bits, Opcode.ofBits,
    Instr.wellFormed, isPointField, Modulus.bit]

theorem pmulG (rn : Bool) (pd rk : Reg) : Statement (.pmulG rn pd rk) := by
  simp [Statement, CmdFields.legal, encodeFields, encodeFields.field, Opcode.bits, Opcode.ofBits,
    Instr.wellFormed, isPointField, Modulus.bit]

end Sys2Proof.Laws.EncodesLegal
end

