-- ==== Sys2Proof/Laws/Window.lean ====
section
/-! SUPPORT. Words of 256-bit registers, the window map, and what serving one access does. -/

namespace Sys2Proof.Machine

/-! ### Words of a register -/

theorem wordOf_getLsbD (v : Word256) (j i : Nat) (h : i < 32) :
    (wordOf v j).getLsbD i = v.getLsbD (32 * j + i) := by
  simp [wordOf, h]

theorem setWordOf_getLsbD (v : Word256) (j : Nat) (w : Word) (i : Nat) (h : i < 256) :
    (setWordOf v j w).getLsbD i =
      if 32 * j ≤ i ∧ i < 32 * j + 32 then w.getLsbD (i - 32 * j) else v.getLsbD i := by
  have hmask : (0xFFFFFFFF#256 : Word256).getLsbD (i - 32 * j) = decide (i - 32 * j < 32) := by
    have : (0xFFFFFFFF#256 : Word256) = (BitVec.allOnes 32).setWidth 256 := by decide
    rw [this, BitVec.getLsbD_setWidth, BitVec.getLsbD_allOnes]
    simp; omega
  simp only [setWordOf, BitVec.getLsbD_or, BitVec.getLsbD_and, BitVec.getLsbD_not,
    BitVec.getLsbD_shiftLeft, BitVec.getLsbD_setWidth, hmask]
  by_cases h1 : i < 32 * j
  · have h2 : ¬ (32 * j ≤ i ∧ i < 32 * j + 32) := by omega
    simp [h, h1, h2]
  · by_cases h3 : i - 32 * j < 32
    · have h4 : 32 * j ≤ i ∧ i < 32 * j + 32 := by omega
      have h5 : i - 32 * j < 256 := by omega
      simp [h, h1, h3, h4, h5]
    · have h2 : ¬ (32 * j ≤ i ∧ i < 32 * j + 32) := by omega
      have h6 : w.getLsbD (i - 32 * j) = false := BitVec.getLsbD_of_ge _ _ (by omega)
      simp [h, h1, h3, h2, h6]

theorem wordOf_setWordOf_same (v : Word256) {j : Nat} (w : Word) (h : j < 8) :
    wordOf (setWordOf v j w) j = w := by
  apply BitVec.eq_of_getLsbD_eq
  intro i hi
  rw [wordOf_getLsbD _ _ _ hi, setWordOf_getLsbD _ _ _ _ (by omega), if_pos (by omega)]
  congr 1; omega

theorem wordOf_setWordOf_ne (v : Word256) {j k : Nat} (w : Word) (hk : k < 8) (h : k ≠ j) :
    wordOf (setWordOf v j w) k = wordOf v k := by
  apply BitVec.eq_of_getLsbD_eq
  intro i hi
  rw [wordOf_getLsbD _ _ _ hi, wordOf_getLsbD _ _ _ hi, setWordOf_getLsbD _ _ _ _ (by omega),
    if_neg (by omega)]

/-- A register is its eight words. -/
theorem eq_of_wordOf {v w : Word256} (h : ∀ j, j < 8 → wordOf v j = wordOf w j) : v = w := by
  apply BitVec.eq_of_getLsbD_eq
  intro i hi
  have := congrArg (fun x => BitVec.getLsbD x (i % 32)) (h (i / 32) (by omega))
  simp only [wordOf_getLsbD _ _ _ (Nat.mod_lt i (by omega : 0 < 32))] at this
  rwa [Nat.div_add_mod] at this

/-! ### The map -/

theorem slotAt_operand (i : Reg) {j : Nat} (h : j < 8) :
    slotAt (0x100 + 0x20 * i.toNat + 4 * j) = .operand i j := by
  have hi := i.isLt
  simp only [slotAt]
  iterate 14 rw [if_neg (by omega)]
  rw [if_pos (by omega)]
  have e1 : (256 + 32 * i.toNat + 4 * j - 256) / 32 = i.toNat := by omega
  have e2 : (256 + 32 * i.toNat + 4 * j - 256) % 32 / 4 = j := by omega
  rw [e1, e2, BitVec.ofNat_toNat, BitVec.setWidth_eq]

theorem slotAt_curveA {j : Nat} (h : j < 8) : slotAt (0x040 + 4 * j) = .curveA j := by
  simp only [slotAt]
  iterate 8 rw [if_neg (by omega)]
  rw [if_pos (by omega)]
  congr 1; omega

theorem slotAt_curveB {j : Nat} (h : j < 8) : slotAt (0x060 + 4 * j) = .curveB j := by
  simp only [slotAt]
  iterate 9 rw [if_neg (by omega)]
  rw [if_pos (by omega)]
  congr 1; omega

/-- The offsets of each slot, range by range (R15). -/
inductive SlotOf (off : Nat) : Slot → Prop where
  | id (h : off = 0x000) : SlotOf off .id
  | cmd (h : off = 0x004) : SlotOf off .cmd
  | status (h : off = 0x008) : SlotOf off .status
  | errcode (h : off = 0x00C) : SlotOf off .errcode
  | ie (h : off = 0x010) : SlotOf off .ie
  | pinf (h : off = 0x014) : SlotOf off .pinf
  | ctrl (h : off = 0x018) : SlotOf off .ctrl
  | low (h : off < 0x040) (hne : off ∉ [0x000, 0x004, 0x008, 0x00C, 0x010, 0x014, 0x018]) :
    SlotOf off .reserved
  | curveA (h : 0x040 ≤ off ∧ off < 0x060) : SlotOf off (.curveA ((off - 0x040) / 4))
  | curveB (h : 0x060 ≤ off ∧ off < 0x080) : SlotOf off (.curveB ((off - 0x060) / 4))
  | constP (h : 0x080 ≤ off ∧ off < 0x0A0) : SlotOf off (.constP ((off - 0x080) / 4))
  | constN (h : 0x0A0 ≤ off ∧ off < 0x0C0) : SlotOf off (.constN ((off - 0x0A0) / 4))
  | constGx (h : 0x0C0 ≤ off ∧ off < 0x0E0) : SlotOf off (.constGx ((off - 0x0C0) / 4))
  | constGy (h : 0x0E0 ≤ off ∧ off < 0x100) : SlotOf off (.constGy ((off - 0x0E0) / 4))
  | operand (h : 0x100 ≤ off ∧ off < 0x300) :
    SlotOf off (.operand (BitVec.ofNat 4 ((off - 0x100) / 32)) ((off - 0x100) % 32 / 4))
  | high (h : 0x300 ≤ off) : SlotOf off .reserved

/-- The map gives every offset a slot of its range. -/
theorem slotOf_slotAt (off : Nat) : SlotOf off (slotAt off) := by
  by_cases h : off < 0x040
  · by_cases h' : off ∈ [0x000, 0x004, 0x008, 0x00C, 0x010, 0x014, 0x018]
    · have := h'
      simp only [List.mem_cons, List.not_mem_nil, or_false] at h'
      rcases h' with rfl | rfl | rfl | rfl | rfl | rfl | rfl
      exacts [.id rfl, .cmd rfl, .status rfl, .errcode rfl, .ie rfl, .pinf rfl, .ctrl rfl]
    · have hne := h'
      simp only [List.mem_cons, List.not_mem_nil, or_false, not_or] at h'
      have e : slotAt off = .reserved := by simp only [slotAt, h', h, if_false, if_true]
      rw [e]; exact .low h hne
  · rw [slotAt]
    iterate 8 rw [if_neg (by omega)]
    by_cases h1 : off < 0x060
    · rw [if_pos h1]; exact .curveA (by omega)
    rw [if_neg h1]
    by_cases h2 : off < 0x080
    · rw [if_pos h2]; exact .curveB (by omega)
    rw [if_neg h2]
    by_cases h3 : off < 0x0A0
    · rw [if_pos h3]; exact .constP (by omega)
    rw [if_neg h3]
    by_cases h4 : off < 0x0C0
    · rw [if_pos h4]; exact .constN (by omega)
    rw [if_neg h4]
    by_cases h5 : off < 0x0E0
    · rw [if_pos h5]; exact .constGx (by omega)
    rw [if_neg h5]
    by_cases h6 : off < 0x100
    · rw [if_pos h6]; exact .constGy (by omega)
    rw [if_neg h6]
    by_cases h7 : off < 0x300
    · rw [if_pos h7]; exact .operand (by omega)
    rw [if_neg h7]; exact .high (by omega)

/-- The locked slots are those of R40's offsets. -/
theorem slotAt_locked (off : Nat) : (slotAt off).lockedWhileBusy = true ↔ LockedOffset off := by
  have h := slotOf_slotAt off
  generalize slotAt off = t at h ⊢
  unfold LockedOffset
  cases h <;> simp only [Slot.lockedWhileBusy, Bool.false_eq_true, true_iff, false_iff,
    List.mem_cons, List.not_mem_nil, or_false, not_or] at * <;> omega
/-! ### Serving one access -/

/-- Everything serving an access can do: refuse it, answer a read, or write a slot. -/
theorem State.serveAt_cases (s : State) (a : Access) (off : Nat) :
    (s.refuses a off = true ∧
      s.serveAt a off = { s with reply := some (refusedReply a.kind) }) ∨
    (s.refuses a off = false ∧ a.kind = .read ∧
      s.serveAt a off = { s with reply := some (.read .OKAY (s.readSlot (slotAt off))) }) ∨
    (∃ v, s.refuses a off = false ∧ a.kind = .write v ∧
      s.serveAt a off = { s.writeSlot (slotAt off) v with reply := some (.write .OKAY) }) := by
  unfold State.serveAt
  by_cases h : s.refuses a off = true
  · exact .inl ⟨h, by simp [h]⟩
  · have h' : s.refuses a off = false := by simpa using h
    cases hk : a.kind with
    | read => exact .inr (.inl ⟨h', rfl, by simp [h']⟩)
    | write v => exact .inr (.inr ⟨v, h', rfl, by simp [h']⟩)

/-- Everything an accepted write to a slot can do. -/
theorem State.writeSlot_cases (s : State) (slot : Slot) (v : Word) :
    (slot = .cmd ∧ s.writeSlot slot v = s.issue v) ∨
    (slot = .status ∧ s.writeSlot slot v = s.writeStatus v) ∨
    (slot = .ie ∧ s.writeSlot slot v = s.writeIE v) ∨
    (slot = .pinf ∧ s.writeSlot slot v = { s with pinf := v.setWidth 8 }) ∨
    (slot = .ctrl ∧ v.getLsbD 0 = true ∧ s.writeSlot slot v = s.resetRegisters) ∨
    (∃ j, slot = .curveA j ∧
      s.writeSlot slot v = { s with curveA := setWordOf s.curveA j v }) ∨
    (∃ j, slot = .curveB j ∧
      s.writeSlot slot v = { s with curveB := setWordOf s.curveB j v }) ∨
    (∃ i j, slot = .operand i j ∧
      s.writeSlot slot v = s.setR i (setWordOf (s.getR i) j v)) ∨
    s.writeSlot slot v = s := by
  cases hv : v.getLsbD 0 <;> cases slot <;> simp_all [State.writeSlot]

end Sys2Proof.Machine
end

