-- ==== Sys2Proof/Laws/Step.lean ====
section
/-! SUPPORT. What one step can do: each command answers its completion with one of a few shapes of
result, and a step is a completion or a turn of the host side. -/

namespace Sys2Proof.Machine

/-! ### Results of commands -/

/-- The shapes a command's result can have: an error, no write (PCHK), one operand register (field
commands), an operand register and QR (MSQRT), or one point register. -/
inductive ResultShape : CommandResult → Prop where
  | error (e : ErrorCode) : ResultShape (.error e)
  | nothing : ResultShape (.ok [])
  | reg (i : Reg) (v : Word256) : ResultShape (.ok [.reg i v])
  | regQr (i : Reg) (v : Word256) (b : Bool) : ResultShape (.ok [.reg i v, .qr b])
  | point (k : PointReg) (q : Point) : ResultShape (.ok [.point k q])

/-- A bind keeps the shape if what follows has it. -/
theorem ResultShape.bind {α : Type} (x : Except ErrorCode α) {f : α → CommandResult}
    (h : ∀ a, ResultShape (f a)) : ResultShape (x >>= f) := by
  cases x with
  | error e => exact .error e
  | ok a => exact h a

theorem ResultShape.writeReg (rd : Reg) (v : Nat) : ResultShape (writeReg rd v) := .reg ..

theorem ResultShape.writePoint (pd : Reg) (q : Point) : ResultShape (writePoint pd q) := .point ..

/-- Every command answers the completion step with a result of one of the shapes. -/
theorem exec_eq_complete (i : Instr) (s : State) :
    ∃ c, ResultShape c ∧ exec i s = .next (s.complete c) := by
  cases i with
  | madd m rd rs1 rs2 =>
    exact ⟨_, .bind _ fun _ => .bind _ fun _ => .writeReg .., rfl⟩
  | msub m rd rs1 rs2 =>
    exact ⟨_, .bind _ fun _ => .bind _ fun _ => .writeReg .., rfl⟩
  | mmul m rd rs1 rs2 =>
    exact ⟨_, .bind _ fun _ => .bind _ fun _ => .writeReg .., rfl⟩
  | mont m rd rs1 rs2 =>
    exact ⟨_, .bind _ fun _ => .bind _ fun _ => .writeReg .., rfl⟩
  | mred m rd rs1 => exact ⟨_, .writeReg .., rfl⟩
  | mpow m signed rd rs1 rs2 => exact ⟨_, .bind _ fun _ => .writeReg .., rfl⟩
  | minv m rd rs1 => exact ⟨_, .bind _ fun _ => .bind _ fun _ => .writeReg .., rfl⟩
  | mdiv m rd rs1 rs2 =>
    exact ⟨_, .bind _ fun _ => .bind _ fun _ => .bind _ fun _ => .writeReg .., rfl⟩
  | msqrt rd rs1 => exact ⟨_, .bind _ fun _ => .regQr .., rfl⟩
  | padd pd ps1 ps2 => exact ⟨_, .bind _ fun _ => .writePoint .., rfl⟩
  | pdbl pd ps1 => exact ⟨_, .bind _ fun _ => .writePoint .., rfl⟩
  | pneg pd ps1 => exact ⟨_, .bind _ fun _ => .writePoint .., rfl⟩
  | pchk ps1 => exact ⟨_, .bind _ fun _ => .nothing, rfl⟩
  | pmul rn pd ps1 rk => exact ⟨_, .bind _ fun _ => .writePoint .., rfl⟩
  | pmulG rn pd rk => exact ⟨_, .bind _ fun _ => .writePoint .., rfl⟩

/-! ### The step -/

/-- Everything a step can do: complete a pending command with a result of one of the shapes, or take
a turn of the host side. -/
theorem step_cases (s : State) :
    (s.rstN = true ∧ s.busy = true ∧ s.wait = 0 ∧
      ∃ c, ResultShape c ∧ step s = .next (s.complete c)) ∨
    (s.turn = .host ∧ step s = .next s.hostTurn) := by
  by_cases h : s.rstN = true ∧ s.busy = true ∧ s.wait = 0
  · have ht : s.turn = .engine := by simp [State.turn, h]
    refine .inl ⟨h.1, h.2.1, h.2.2, ?_⟩
    cases hd : decode s.cmd with
    | ok i => simpa [step, ht, hd] using exec_eq_complete i s
    | error e => exact ⟨_, .error .illegalCmd, by simp [step, ht, hd, State.finish]⟩
  · have ht : s.turn = .host := by
      simp only [State.turn]
      rw [if_neg]
      simpa [and_assoc] using h
    exact .inr ⟨ht, by simp [step, ht]⟩

/-- The state an access presented in `s` is served in: a turn of the latency has passed, and the
access is taken off the bus. -/
def State.beforeServing (s : State) (rest : List Input) : State :=
  { s with wait := s.wait - 1, inputs := rest }

@[simp] theorem State.beforeServing_cmd (s : State) (rest : List Input) :
    (s.beforeServing rest).cmd = s.cmd := rfl

@[simp] theorem State.beforeServing_busy (s : State) (rest : List Input) :
    (s.beforeServing rest).busy = s.busy := rfl

@[simp] theorem State.beforeServing_done (s : State) (rest : List Input) :
    (s.beforeServing rest).done = s.done := rfl

@[simp] theorem State.beforeServing_err (s : State) (rest : List Input) :
    (s.beforeServing rest).err = s.err := rfl

@[simp] theorem State.beforeServing_qr (s : State) (rest : List Input) :
    (s.beforeServing rest).qr = s.qr := rfl

@[simp] theorem State.beforeServing_code (s : State) (rest : List Input) :
    (s.beforeServing rest).code = s.code := rfl

@[simp] theorem State.beforeServing_doneIE (s : State) (rest : List Input) :
    (s.beforeServing rest).doneIE = s.doneIE := rfl

@[simp] theorem State.beforeServing_errIE (s : State) (rest : List Input) :
    (s.beforeServing rest).errIE = s.errIE := rfl

@[simp] theorem State.beforeServing_pinf (s : State) (rest : List Input) :
    (s.beforeServing rest).pinf = s.pinf := rfl

@[simp] theorem State.beforeServing_curveA (s : State) (rest : List Input) :
    (s.beforeServing rest).curveA = s.curveA := rfl

@[simp] theorem State.beforeServing_curveB (s : State) (rest : List Input) :
    (s.beforeServing rest).curveB = s.curveB := rfl

@[simp] theorem State.beforeServing_r (s : State) (rest : List Input) :
    (s.beforeServing rest).r = s.r := rfl

@[simp] theorem State.beforeServing_rstN (s : State) (rest : List Input) :
    (s.beforeServing rest).rstN = s.rstN := rfl

@[simp] theorem State.beforeServing_basePage (s : State) (rest : List Input) :
    (s.beforeServing rest).basePage = s.basePage := rfl

@[simp] theorem State.beforeServing_reply (s : State) (rest : List Input) :
    (s.beforeServing rest).reply = s.reply := rfl

@[simp] theorem State.beforeServing_draws (s : State) (rest : List Input) :
    (s.beforeServing rest).draws = s.draws := rfl

@[simp] theorem State.beforeServing_wait (s : State) (rest : List Input) :
    (s.beforeServing rest).wait = s.wait - 1 := rfl

@[simp] theorem State.beforeServing_inputs (s : State) (rest : List Input) :
    (s.beforeServing rest).inputs = rest := rfl

theorem State.offsetOf?_eq_some {s : State} {addr off : Nat} (h : addr = s.base + off)
    (ho : off < Config.windowBytes) : s.offsetOf? addr = some off := by
  unfold State.offsetOf?
  rw [if_pos (by omega)]
  congr 1; omega

theorem State.offsetOf?_eq_none {s : State} {addr : Nat}
    (h : addr < s.base ∨ s.base + Config.windowBytes ≤ addr) : s.offsetOf? addr = none := by
  unfold State.offsetOf?
  rw [if_neg (by omega)]

theorem State.hostTurn_released {s : State} {i : Input} {rest : List Input} (hr : s.rstN = true)
    (hi : s.inputs = i :: rest) : s.hostTurn = (s.beforeServing rest).receive i := by
  unfold State.hostTurn State.pass State.beforeServing
  rw [hi, hr]
  rfl

/-- The step at a presented access serves it. -/
theorem Presented.step_eq {s : State} {a : Access} {off : Nat} {rest : List Input}
    (h : Presented s a off rest) : step s = .next ((s.beforeServing rest).serveAt a off) := by
  have ho : (s.beforeServing rest).offsetOf? a.addr = some off :=
    State.offsetOf?_eq_some h.addr h.inWindow
  have hb : (s.beforeServing rest).rstN = true := h.released
  unfold step
  rw [h.turn, State.hostTurn_released h.released h.next]
  simp only [State.receive, State.serveAccess, ho, hb, if_true]

/-- Everything a turn of the host side can do while reset is not asserted. -/
theorem State.hostTurn_cases {s : State} (hr : s.rstN = true) :
    (s.inputs = [] ∧ s.hostTurn = s.beforeServing []) ∨
    (∃ rest, s.inputs = .rstN true :: rest ∧ s.hostTurn = s.beforeServing rest) ∨
    (∃ rest, s.inputs = .rstN false :: rest ∧
      s.hostTurn = { (s.beforeServing rest).resetRegisters with rstN := false }) ∨
    (∃ a rest, s.inputs = .access a :: rest ∧ s.offsetOf? a.addr = none ∧
      s.hostTurn = { s.beforeServing rest with reply := none }) ∨
    (∃ a off rest, s.inputs = .access a :: rest ∧ a.addr = s.base + off ∧
      off < Config.windowBytes ∧ s.hostTurn = (s.beforeServing rest).serveAt a off) := by
  cases hi : s.inputs with
  | nil =>
    refine .inl ⟨rfl, ?_⟩
    unfold State.hostTurn State.pass State.beforeServing
    rw [hi, hr]
    rfl
  | cons i rest =>
    rw [State.hostTurn_released hr hi]
    cases i with
    | rstN level =>
      cases level with
      | true =>
        refine .inr (.inl ⟨rest, rfl, ?_⟩)
        simp [State.receive, State.driveReset, State.beforeServing, hr]
      | false => exact .inr (.inr (.inl ⟨rest, rfl, rfl⟩))
    | access a =>
      have hb : (s.beforeServing rest).rstN = true := hr
      have ho : (s.beforeServing rest).offsetOf? a.addr = s.offsetOf? a.addr := rfl
      simp only [State.receive, State.serveAccess]
      rw [ho]
      by_cases h : s.base ≤ a.addr ∧ a.addr < s.base + Config.windowBytes
      · have e : s.offsetOf? a.addr = some (a.addr - s.base) :=
          State.offsetOf?_eq_some (by omega) (by omega)
        rw [e]
        exact .inr (.inr (.inr (.inr ⟨a, _, rest, rfl, by omega, by omega, if_pos hb⟩)))
      · have e : s.offsetOf? a.addr = none := State.offsetOf?_eq_none (by omega)
        rw [e]
        exact .inr (.inr (.inr (.inl ⟨a, rest, rfl, e, rfl⟩)))

/-- The registers after a reset (R108). -/
theorem State.resetRegisters_atReset (s : State) : AtReset s.resetRegisters :=
  { cmd := rfl, busy := rfl, done := rfl, err := rfl, qr := rfl, code := rfl, doneIE := rfl,
    errIE := rfl, pinf := rfl, curveA := rfl, curveB := rfl,
    r := fun i => by
      change State.reset.getR i = 0
      revert i
      decide }

/-- A state that a reset would not change has its registers at their reset values. -/
theorem AtReset.of_eq {t : State} (h : t.resetRegisters = t) : AtReset t :=
  h ▸ t.resetRegisters_atReset

theorem Access.isWordAt_iff (a : Access) (off : Nat) : a.isWordAt off = true ↔ a.Aligned32 off := by
  simp [Access.isWordAt, Access.Aligned32, and_assoc]

/-! ### What a completion looks like -/

theorem State.complete_completed (s : State) (c : CommandResult) : Completed s (s.complete c) :=
  { busy := by simp, done := by simp, cmd := by simp, doneIE := by simp, errIE := by simp,
    curveA := by simp, curveB := by simp, rstN := by simp, basePage := by simp,
    inputs := by simp, reply := by simp }

theorem State.complete_succeeded (s : State) (ws : List Write) :
    Succeeded s (s.complete (.ok ws)) :=
  { s.complete_completed (.ok ws) with err := by simp, code := by simp }

theorem State.complete_failed (s : State) (e : ErrorCode) : Failed e s (s.complete (.error e)) :=
  { s.complete_completed (.error e) with
    err := by simp, code := by simp, r := by simp, pinf := by simp, qr := by simp }

/-- A completion that writes one operand register (R66). -/
theorem State.complete_reg (s : State) (rd : Reg) (v : Word256) :
    FieldWrote rd s (s.complete (.ok [.reg rd v])) ∧
      (s.complete (.ok [.reg rd v])).getR rd = v ∧ (s.complete (.ok [.reg rd v])).qr = s.qr :=
  ⟨{ s.complete_succeeded [.reg rd v] with
      others := fun i hi => by simp [State.applyWrite, hi]
      pinf := by simp [State.applyWrite] },
    by simp [State.applyWrite], by simp [State.applyWrite]⟩

/-- A completion that writes one point register, for a point in range (R82). -/
theorem State.complete_point (s : State) (k : PointReg) {q : Point} (h : q.InRange) :
    PointWrote k q s (s.complete (.ok [.point k q])) := by
  have hw : (s.complete (.ok [.point k q])).r = (s.ptWrite k q).r := by
    simp [State.applyWrite]
  have hp : (s.complete (.ok [.point k q])).pinf = (s.ptWrite k q).pinf := by
    simp [State.applyWrite]
  have hg : ∀ i, (s.complete (.ok [.point k q])).getR i = (s.ptWrite k q).getR i := fun i => by
    simp [State.applyWrite]
  have hP := P_lt
  refine { s.complete_succeeded [.point k q] with
    flag := ?_, x := ?_, y := ?_, others := ?_, flags := ?_, qr := ?_ }
  · simp only [State.isInf, hp, State.ptWrite_pinf, setFlag_self]
  · rw [State.nat, hg, State.ptWrite_getR, if_neg (xReg_ne_yReg k k), if_pos rfl]
    cases q with
    | inf => rfl
    | affine x y => exact toNat_ofNat_of_lt hP h.1
  · rw [State.nat, hg, State.ptWrite_getR, if_pos rfl]
    cases q with
    | inf => rfl
    | affine x y => exact toNat_ofNat_of_lt hP h.2
  · intro i h1 h2
    rw [hg, State.ptWrite_getR, if_neg h2, if_neg h1]
  · intro j hj
    simp only [State.isInf, hp, State.ptWrite_pinf, setFlag_ne _ _ hj]
  · simp [State.applyWrite]

end Sys2Proof.Machine
end

