-- ==== Sys2Proof/Tests/Slice0.lean ====
section
/-! SUPPORT. Small tests. Expected values are the spec's: 30_encoding.md R63, the vectors of
95_test_vectors.md (their ids stand in the names), or hand calculation from a rule. Below them, for
every statement with hypotheses, witnesses that meet them. -/

-- One theorem after the other: checked all at once they take more memory than the check allows.
set_option Elab.async false

namespace Sys2Proof.Tests

open Sys2Proof.Machine

/-! ### Helpers -/

/-- The reset state with some operand registers written. -/
def withRegs (rs : List (Reg × Nat)) : State :=
  rs.foldl (fun s x => s.setR x.1 (BitVec.ofNat 256 x.2)) State.reset

/-- The same, with PINF and the coefficients set. -/
def onCurveWith (a b : Nat) (pinf : BitVec 8) (rs : List (Reg × Nat)) : State :=
  { withRegs rs with curveA := BitVec.ofNat 256 a, curveB := BitVec.ofNat 256 b, pinf := pinf }

/-- The test on the next state of an outcome; false where there is none. -/
def next? (o : Host.Outcome State Fault Refusal) (test : State → Bool) : Bool :=
  match o with
  | .next t => test t
  | _ => false

/-- One step that runs a command word, and a test of the state after it. -/
def runs (w : Nat) (s : State) (test : State → Bool) : Bool := next? (step (s.withFetchWord 32 w)) test

/-- A state with one input on the bus. -/
def withAccess (s : State) (a : Access) : State := { s with inputs := [.access a] }

def G1 : List (Reg × Nat) := [(0, Config.Gx), (1, Config.Gy)]

/-! ### Well-formedness: every check refuses an ill-formed term -/

theorem test_illformed_padd_pd : (Instr.padd 8 0 0).wellFormed = false := by decide
theorem test_illformed_padd_ps1 : (Instr.padd 0 9 0).wellFormed = false := by decide
theorem test_illformed_padd_ps2 : (Instr.padd 0 0 15).wellFormed = false := by decide
theorem test_illformed_pdbl_pd : (Instr.pdbl 8 0).wellFormed = false := by decide
theorem test_illformed_pdbl_ps1 : (Instr.pdbl 0 8).wellFormed = false := by decide
theorem test_illformed_pneg_pd : (Instr.pneg 12 0).wellFormed = false := by decide
theorem test_illformed_pneg_ps1 : (Instr.pneg 0 8).wellFormed = false := by decide
theorem test_illformed_pchk : (Instr.pchk 8).wellFormed = false := by decide
theorem test_illformed_pmul_pd : (Instr.pmul false 8 0 0).wellFormed = false := by decide
theorem test_illformed_pmul_ps1 : (Instr.pmul false 0 8 0).wellFormed = false := by decide
theorem test_illformed_pmulG : (Instr.pmulG false 8 0).wellFormed = false := by decide

/-! ### Decoding: words written out from R52, R54 and R55 (R63) -/

theorem test_decode_madd : decode 0b00000000_0010_0001_0011_000_0_0_0_000001#32 =
    .ok (.madd .P 3 1 2) := by decide
theorem test_decode_msub : decode 0b00000000_1111_0000_0000_000_0_0_0_000010#32 =
    .ok (.msub .P 0 0 15) := by decide
theorem test_decode_mmul : decode 0b00000000_0110_0101_0100_000_0_0_1_000011#32 =
    .ok (.mmul .N 4 5 6) := by decide
theorem test_decode_mont : decode 0b00000000_0001_0000_0010_000_0_0_0_000100#32 =
    .ok (.mont .P 2 0 1) := by decide
theorem test_decode_mred : decode 0b00000000_0000_0111_0111_000_0_0_1_000101#32 =
    .ok (.mred .N 7 7) := by decide
theorem test_decode_mpow : decode 0b00000000_0011_0010_0001_000_0_1_1_001000#32 =
    .ok (.mpow .N true 1 2 3) := by decide
theorem test_decode_minv : decode 0b00000000_0000_1000_1001_000_0_0_1_001001#32 =
    .ok (.minv .N 9 8) := by decide
theorem test_decode_mdiv : decode 0b00000000_1100_1011_1010_000_0_0_0_001010#32 =
    .ok (.mdiv .P 10 11 12) := by decide
theorem test_decode_msqrt : decode 0b00000000_0000_0100_0101_000_0_0_0_001011#32 =
    .ok (.msqrt 5 4) := by decide
theorem test_decode_padd : decode 0b00000000_0001_0000_0010_000_0_0_0_010000#32 =
    .ok (.padd 2 0 1) := by decide
theorem test_decode_pdbl : decode 0b00000000_0000_0001_0001_000_0_0_0_010001#32 =
    .ok (.pdbl 1 1) := by decide
theorem test_decode_pneg : decode 0b00000000_0000_0000_0011_000_0_0_0_010010#32 =
    .ok (.pneg 3 0) := by decide
theorem test_decode_pchk : decode 0b00000000_0000_0101_0000_000_0_0_0_010011#32 =
    .ok (.pchk 5) := by decide
theorem test_decode_pmul : decode 0b00000000_0101_0001_0000_000_0_1_0_011000#32 =
    .ok (.pmul true 0 1 5) := by decide
theorem test_decode_pmulG : decode 0b00000000_1111_0000_0111_000_1_1_0_011000#32 =
    .ok (.pmulG true 7 15) := by decide

theorem test_reject_reserved_opcode : decode 0x00000006#32 = .error .reservedOpcode := by decide
theorem test_reject_reserved_bits : decode 0x00000801#32 = .error .reservedBits := by decide
theorem test_reject_option : decode 0x00000108#32 = .error .optionNotAllowed := by decide
theorem test_reject_modulus : decode 0x0000004B#32 = .error .modulusNotAllowed := by decide
theorem test_reject_field : decode 0x00001013#32 = .error .fieldNotZero := by decide
theorem test_reject_point_bit3 : decode 0x00F80018#32 = .error .pointFieldBit3 := by decide

/-- The table's numbering of a row's bits is the command word's (R52). -/
theorem test_decodeTableWord : decodeTableWord 32 0x00F07198 = some (.pmulG true 7 15) := by decide

/-! ### Commands: at most two vectors each (95_test_vectors.md sections 2.2 to 2.6) -/

theorem test_madd_F2 : runs 0x00213001 (withRegs [(1, Config.P - 1), (2, 2)]) (fun t =>
    t.nat 3 == 1 && t.done && !t.busy && !t.err) = true := by decide +kernel
theorem test_madd_F5 : runs 0x00213041 (withRegs [(1, Config.N), (3, 0x1234)]) (fun t =>
    t.nat 3 == 0x1234 && t.err && t.code == 2) = true := by decide +kernel
theorem test_msub_F9 : runs 0x00101042 (withRegs [(1, 1)]) (fun t =>
    t.nat 1 == Config.N - 1) = true := by decide +kernel
theorem test_mmul_F14 : runs 0x00113003 (withRegs [(1, 2 ^ 128)]) (fun t =>
    t.nat 3 == 0x1000003D1) = true := by decide +kernel
theorem test_mont_F18 : runs 0x00213004 (withRegs [(1, 5), (2, 0x1000007A2000E90A1)]) (fun t =>
    t.nat 3 == 0x500001315) = true := by decide +kernel
theorem test_mont_F20 : runs 0x00213044 (withRegs [(1, 7),
    (2, 0x9D671CD581C69BC5E697F5E45BCD07C6741496C20E7CF878896CF21467D7D140)]) (fun t =>
    t.nat 3 == 0x8E537F5B135039E5DC13F6A264E843739) = true := by decide +kernel
theorem test_mred_F25 : runs 0x00013045 (withRegs [(1, Config.P)]) (fun t =>
    t.nat 3 == Config.P - Config.N) = true := by decide +kernel
theorem test_mred_F28 : runs 0x00213005 (withRegs [(1, 7), (3, 0x55)]) (fun t =>
    t.nat 3 == 0x55 && t.code == 1) = true := by decide +kernel
theorem test_mpow_X5 : runs 0x00213008 (withRegs [(2, Config.P - 1)]) (fun t =>
    t.nat 3 == 1) = true := by decide +kernel
theorem test_mpow_X9 : runs 0x002130C8 (withRegs [(1, 2), (2, 2 ^ 256 - 2)]) (fun t =>
    t.nat 3 == 0xBFFFFFFFFFFFFFFFFFFFFFFFFFFFFFFF0C0325AD0376782CCFDDC6E99C28B0F1) = true := by
  decide +kernel
theorem test_minv_X12 : runs 0x00013049 (withRegs [(1, 2)]) (fun t =>
    t.nat 3 == (Config.N + 1) / 2) = true := by decide +kernel
theorem test_minv_X15 : runs 0x00013009 (withRegs [(3, 0x77)]) (fun t =>
    t.nat 3 == 0x77 && t.code == 4) = true := by decide +kernel
theorem test_mdiv_X17 : runs 0x0021300A (withRegs [(1, 10), (2, 4)]) (fun t =>
    t.nat 3 == 0x7FFFFFFFFFFFFFFFFFFFFFFFFFFFFFFFFFFFFFFFFFFFFFFFFFFFFFFF7FFFFE1A) = true := by
  decide +kernel
theorem test_mdiv_X20 : runs 0x0021300A (withRegs [(1, Config.P), (3, 0x77)]) (fun t =>
    t.nat 3 == 0x77 && t.code == 2) = true := by decide +kernel
theorem test_msqrt_T4 : runs 0x0001300B (withRegs [(1, 3)]) (fun t =>
    t.nat 3 == 0x0A2D2BA93507F1DF233770C2A797962CC61F6D15DA14ECD47D8D27AE1CD5F852 && !t.qr) =
    true := by decide +kernel
theorem test_msqrt_T1 : runs 0x0001300B (withRegs [(1, 4)]) (fun t => t.nat 3 == 2 && t.qr) =
    true := by decide +kernel
theorem test_padd_Q6 : runs 0x00000010 (onCurveWith 0 7 0xFE G1) (fun t =>
    t.pt 0 == .affine 0xC6047F9441ED7D6D3045406E95C07CD85C778E4B8CEF3CA7ABAC09B95C709EE5
      0x1AE168FEA63DC339A3C58419466CEAEEF7F632653266D0E1236431A950CFE52A && t.pinf == 0xFE) =
    true := by decide +kernel
theorem test_padd_Q15 : runs 0x00102010 (onCurveWith 0 7 0xFC
    [(0, Config.Gx), (1, Config.Gy + 1), (2, Config.P), (3, 0)]) (fun t =>
    t.code == 2 && t.pinf == 0xFC) = true := by decide +kernel
theorem test_pdbl_Q19 : runs 0x00001011 (onCurveWith 0 (Config.P - 1) 0xFE [(0, 1)]) (fun t =>
    t.pt 1 == .inf && t.nat 2 == 0) = true := by decide +kernel
theorem test_pdbl_Q20 : runs 0x00001011 (onCurveWith 1 (Config.P - 1) 0xFE [(0, 2), (1, 3)])
    (fun t => t.pt 1 ==
      .affine 0x78E38E38E38E38E38E38E38E38E38E38E38E38E38E38E38E38E38E386AAAA8DE
        0xA4BDA12F684BDA12F684BDA12F684BDA12F684BDA12F684BDA12F68418E38BC4 && t.pinf == 0xFC) =
    true := by decide +kernel
theorem test_pneg_Q9 : runs 0x00001012 (onCurveWith 0 7 0xFE G1) (fun t =>
    t.pt 1 == .affine Config.Gx
      0xB7C52588D95C3B9AA25B0403F1EEF75702E84BB7597AABE663B82F6F04EF2777) = true := by
  decide +kernel
theorem test_pneg_Q10 : runs 0x00001012 State.reset (fun t =>
    t.pt 1 == .inf && t.pinf == 0xFF && !t.err) = true := by decide +kernel
theorem test_pchk_Q12 : runs 0x00000013 (onCurveWith 0 7 0xFE []) (fun t =>
    t.code == 3 && t.pinf == 0xFE) = true := by decide +kernel
theorem test_pchk_Q13 : runs 0x00000013 (withRegs [(0, 5), (1, Config.P + 3)]) (fun t =>
    !t.err && t.done) = true := by decide +kernel
theorem test_pmul_S14 : runs 0x00F10098 (onCurveWith 0 (Config.P - 1) 0xFD
    [(2, 1), (15, Config.N)]) (fun t => t.pt 0 == .inf) = true := by decide +kernel
theorem test_pmul_S13_small : runs 0x00F10018 (onCurveWith 0 (Config.P - 1) 0xFD
    [(2, 1), (15, 3)]) (fun t => t.pt 0 == .affine 1 0 && t.pinf == 0xFC) = true := by
  decide +kernel
theorem test_pmulG_S4 : runs 0x00F00118 (withRegs [(15, 3)]) (fun t =>
    t.pt 0 == .affine 0xF9308A019258C31049344F85F89D5229B531C845836F99B08601F113BCE036F9
      0x388F7B0F632DE8140FE337E62A37F3566500A99934C2231B6CB9FD7584B8E672 &&
    t.nat 15 == 3) = true := by decide +kernel
theorem test_pmulG_S16 : runs 0x00F00118 (onCurveWith 0 5 0xFF [(15, 1)]) (fun t =>
    t.code == 3 && t.pinf == 0xFF) = true := by decide +kernel

/-! ### Errors, interrupt and bus (sections 2.7 and 2.8) -/

/-- E1 to E4 on one command: the error is kept, IRQ rises, and the acknowledgement clears both. -/
theorem test_errors_E1_E4 :
    runs 0x00000006 { State.reset with doneIE := true, errIE := true } (fun t =>
      t.statusWord == 6 && t.errcodeWord == 1 && t.irq &&
      t.acknowledge.statusWord == 0 && t.acknowledge.errcodeWord == 0 && !t.acknowledge.irq) =
    true := by decide +kernel

/-- E2: a second error keeps the first code. -/
theorem test_errors_E2 :
    runs 0x00112001 { withRegs [(1, Config.P)] with err := true, code := 1 } (fun t =>
      t.statusWord == 6 && t.errcodeWord == 1 && t.nat 2 == 0) = true := by decide +kernel

theorem test_bus_B1 : next? (step (withAccess State.reset (readWordAccess 0x000))) (fun t =>
    t.reply == some (.read .OKAY 0x4D464531)) = true := by decide +kernel
theorem test_bus_B7 : next? (step (withAccess State.reset (readWordAccess 0x084))) (fun t =>
    t.reply == some (.read .OKAY 0xFFFFFFFE)) = true := by decide +kernel
theorem test_bus_B16 : next? (step (withAccess State.reset
    { readWordAccess 0x000 with bytes := 1, lanes := 1 })) (fun t =>
    t.reply == some (.read .SLVERR 0)) = true := by decide +kernel
theorem test_bus_B20 : next? (step (withAccess State.reset (writeWordAccess 0x17C 0x22222222)))
    (fun t => t.nat 3 == 0x22222222 * 2 ^ 224 && t.reply == some (.write .OKAY)) = true := by
  decide +kernel
theorem test_bus_B22 : next? (step (withAccess State.reset (writeWordAccess 0x014 0xFFFFFF00)))
    (fun t => t.pinfWord == 0) = true := by decide +kernel
theorem test_bus_B23 : next? (step (withAccess (withRegs [(3, 9)]) (writeWordAccess 0x018 1)))
    (fun t => t.nat 3 == 0 && t.pinf == 0xFF && t.reply == some (.write .OKAY)) = true := by
  decide +kernel
theorem test_bus_B24 : next? (step (withAccess State.reset (writeWordAccess 0x010 0xFFFFFFFF)))
    (fun t => t.ieWord == 3) = true := by decide +kernel

/-- While a command is pending a write to R1 is refused and a read is served (section 2.7, R40,
R41). -/
theorem test_busy_write_refused : next? (step (withAccess
    { State.reset with busy := true, wait := 1 } (writeWordAccess 0x120 5))) (fun t =>
    t.nat 1 == 0 && t.busy && t.reply == some (.write .SLVERR)) = true := by decide +kernel

/-- A CMD write sets BUSY and keeps the word (R58); the latency drawn is not known. -/
theorem test_cmd_write : next? (step (withAccess State.reset (writeWordAccess 0x004 0x00213001)))
    (fun t => t.busy && !t.done && t.cmd == 0x00213001) = true := by decide +kernel

/-- R44: byte b of word 0 of CONST_GX, least significant first. -/
theorem test_bytes_of_gx : (List.range 4).map (byteOf (BitVec.ofNat 256 Config.Gx)) =
    [0x98, 0x17, 0xF8, 0x16] := by decide +kernel

theorem test_assemble_pseudo : assemble "msqr.p r3, r1".toList = some 0x00113003#32 := by
  decide +kernel

/-- Stray dots and missing suffixes are no forms of R61 (log entry 8). -/
theorem test_assemble_stray_dots : (["PADD. p0, p1, p2", "PADD.P p0, p1, p2", "MADD..P r1, r2, r3",
    "MADD.P. r1, r2, r3", ".MADD.P r1, r2, r3", "MADD r1, r2, r3", "PMUL..RN p0, p1, r5",
    "MSQRT.N r1, r2"].all fun l => (assembleLine l.toList).isNone) = true := by decide +kernel

/-- The curve check of R92's condition: secp256k1 is not singular, y² = x³ is. -/
theorem test_singular : singular 0 7 = false ∧ singular 0 0 = true := by decide +kernel

/-! ### Witnesses: states and operands that meet the hypotheses of the statements -/

/-- An access put on the bus of a state whose turn is the host side's is presented. -/
theorem presented_withAccess {s : State} {a : Access} {off : Nat} (h1 : s.rstN = true)
    (h2 : s.turn = .host) (h3 : a.addr = s.base + off) (h4 : off < 4096) :
    Presented (withAccess s a) a off [] :=
  { released := h1, turn := h2, next := rfl, addr := h3, inWindow := h4 }

/-- A pending command whose latency has not passed. -/
def pending : State := { State.reset with busy := true, wait := 1, cmd := 0x00213001 }

/-- A pending command that falls due now. -/
def due (w : Nat) : State := State.reset.withFetchWord 32 w

theorem witness_SampleLinesEncodeAndIllegalSamplesFail :
    (due 0x0000004B).turn = .engine ∧ (due 0x0000004B).cmd = 0x0000004B#32 := by decide

theorem witness_DecodeOfEncodedCommand : (Instr.padd 7 0 7).wellFormed = true ∧
    (Instr.pmulG true 7 15).wellFormed = true ∧ (Instr.mpow .N true 15 15 15).wellFormed = true := by
  decide

theorem witness_EncodeOfDecodedWord :
    decode 0x00F07198#32 = .ok (.pmulG true 7 15) ∧ decode 0x00FFF041#32 = .ok (.madd .N 15 15 15) :=
  by decide

theorem witness_OpcodeTableRowsAreTheDecoder :
    opcodeRows[0]? = some (0xFF000FBF#32, 0x00000001#32) ∧
    opcodeRows[14]? = some (0xFF0F8F7F#32, 0x00000118#32) ∧
    0x00F07198#32 &&& 0xFF0F8F7F#32 = 0x00000118#32 := by decide

theorem witness_IllegalWordCompletesWithIllegalCmd :
    (due 0x00000006).turn = .engine ∧ legal (due 0x00000006).cmd = false ∧
    ([0x00000000#32, 0x00000019#32, 0x00000201#32, 0x80000001#32, 0x00000089#32,
      0x00000108#32, 0x00100005#32, 0x00001013#32, 0x00010118#32, 0x0000004B#32, 0x00000050#32,
      0x00008010#32, 0x00080011#32, 0x00800010#32].all fun w => !legal w) = true := by decide +kernel

theorem witness_EngineStepRunsThePendingCommand :
    (due 0x00213001).turn = .engine ∧ decode (due 0x00213001).cmd = .ok (.madd .P 3 1 2) := by
  decide

theorem witness_AssemblerReadsEveryLine :
    (Instr.pmul true 7 0 15).wellFormed = true ∧ isPointField 7 = true := by decide

/-- Field commands: operands at the top of the range, and the first value out of it. -/
theorem witness_field_in_range (m : Modulus) :
    (withRegs [(1, modulusOf m - 1), (2, modulusOf m - 1)]).nat 1 < modulusOf m ∧
    (withRegs [(1, modulusOf m - 1), (2, modulusOf m - 1)]).nat 2 < modulusOf m ∧
    (withRegs [(1, modulusOf m - 1), (2, modulusOf m - 1)]).nat 2 ≠ 0 := by
  cases m <;> decide +kernel

theorem witness_field_out_of_range (m : Modulus) :
    modulusOf m ≤ (withRegs [(1, modulusOf m)]).nat 1 ∧
    modulusOf m ≤ (withRegs [(2, modulusOf m)]).nat 2 := by cases m <;> decide +kernel

theorem witness_field_zero (m : Modulus) :
    (withRegs [(1, 1)]).nat 1 < modulusOf m ∧ (withRegs [(1, 1)]).nat 2 = 0 := by
  cases m <;> decide +kernel

theorem witness_MaddAddsModulo : (withRegs [(1, 5), (2, Config.P - 1)]).nat 1 < modulusOf .P ∧
    (withRegs [(1, 5), (2, Config.P - 1)]).nat 2 < modulusOf .P := by decide +kernel

theorem witness_MsqrtWritesTheRootAndQr :
    (withRegs [(1, Config.P - 1)]).nat 1 < Config.P ∧ Config.P ≤ (withRegs [(1, Config.P)]).nat 1 ∧
    (0x0000004B#32).toNat % 64 = 0x0B ∧ (0x0000004B#32).getLsbD 6 = true := by decide +kernel

/-- G in P0 and P1 with the reset coefficients. -/
def twoG : State := onCurveWith 0 7 0xFC (G1 ++ [(2, Config.Gx), (3, Config.Gy)])

theorem twoG_coefficients : CoefficientsInRange twoG := by
  unfold CoefficientsInRange; decide +kernel

theorem twoG_valid (f : Reg) (h : f = 0 ∨ f = 1) : ValidSource twoG (twoG.pt (pointField f)) := by
  rcases h with rfl | rfl
  · have e : twoG.pt (pointField 0) = .affine Config.Gx Config.Gy := by decide +kernel
    rw [e]; exact ⟨by unfold Point.InRange; decide +kernel, by decide +kernel⟩
  · have e : twoG.pt (pointField 1) = .affine Config.Gx Config.Gy := by decide +kernel
    rw [e]; exact ⟨by unfold Point.InRange; decide +kernel, by decide +kernel⟩

theorem witness_PaddAddsPoints : CoefficientsInRange twoG ∧
    ValidSource twoG (twoG.pt (pointField 0)) ∧ ValidSource twoG (twoG.pt (pointField 1)) :=
  ⟨twoG_coefficients, twoG_valid 0 (.inl rfl), twoG_valid 1 (.inr rfl)⟩

theorem witness_PdblDoublesAPoint : CoefficientsInRange twoG ∧
    ValidSource twoG (twoG.pt (pointField 0)) ∧
    (onCurveWith 0 (Config.P - 1) 0xFE [(0, 1)]).pt (pointField 0) = .affine 1 0 :=
  ⟨twoG_coefficients, twoG_valid 0 (.inl rfl), by decide +kernel⟩

theorem witness_PnegNegatesAPoint : CoefficientsInRange twoG ∧
    ValidSource twoG (twoG.pt (pointField 0)) ∧ (twoG.pt (pointField 0)).InRange :=
  ⟨twoG_coefficients, twoG_valid 0 (.inl rfl), (twoG_valid 0 (.inl rfl)).inRange⟩

theorem witness_PchkChecksAndWritesNothing : CoefficientsInRange twoG ∧
    ValidSource twoG (twoG.pt (pointField 0)) ∧ twoG.isInf (pointField 7) = true :=
  ⟨twoG_coefficients, twoG_valid 0 (.inl rfl), by decide +kernel⟩

/-- The error clauses of point commands: a coefficient P, a coordinate P, and a point off the
curve. -/
theorem witness_point_errors :
    ¬ CoefficientsInRange (onCurveWith 0 Config.P 0xFF []) ∧
    ¬ ((onCurveWith 0 7 0xFE [(0, Config.P)]).pt (pointField 0)).InRange ∧
    CoefficientsInRange (onCurveWith 0 7 0xFE []) ∧
    ((onCurveWith 0 7 0xFE []).pt (pointField 0)).InRange ∧
    onCurve 0 7 ((onCurveWith 0 7 0xFE []).pt (pointField 0)) = false := by
  have e1 : (onCurveWith 0 7 0xFE [(0, Config.P)]).pt (pointField 0) = .affine Config.P 0 := by
    decide +kernel
  have e2 : (onCurveWith 0 7 0xFE []).pt (pointField 0) = .affine 0 0 := by decide +kernel
  rw [e1, e2]
  unfold CoefficientsInRange Point.InRange
  decide +kernel

theorem witness_PmulMultipliesAPoint : CoefficientsInRange twoG ∧
    ValidSource twoG (twoG.pt (pointField 1)) ∧ ValidSource twoG (.affine Config.Gx Config.Gy) ∧
    singular twoG.curveA.toNat twoG.curveB.toNat = false :=
  ⟨twoG_coefficients, twoG_valid 1 (.inr rfl),
    ⟨by unfold Point.InRange; decide +kernel, by decide +kernel⟩, by decide +kernel⟩

/-- A singular curve (x - c)²(x + 2c) on which G lies, with G in P0 as well. -/
def singularWithG : State :=
  onCurveWith 0xFB8B25F42D993EE7D9A278CABA8CC5056E32074840599418C7040A32904244C3
    0x7BDC60CC9A2DFA410E43CF54F292B1BF5E6F13E01DBACA85BB0157EB73116772 0xFE G1

theorem witness_SingularCurvePmulCompletes : CoefficientsInRange singularWithG ∧
    singular singularWithG.curveA.toNat singularWithG.curveB.toNat = true ∧
    ValidSource singularWithG (singularWithG.pt (pointField 0)) ∧
    ValidSource singularWithG (.affine Config.Gx Config.Gy) := by
  have e : singularWithG.pt (pointField 0) = .affine Config.Gx Config.Gy := by decide +kernel
  have v : ValidSource singularWithG (.affine Config.Gx Config.Gy) :=
    ⟨by unfold Point.InRange; decide +kernel, by decide +kernel⟩
  rw [e]
  exact ⟨by unfold CoefficientsInRange; decide +kernel, by decide +kernel, v, v⟩

theorem witness_PointCommandsNeverDivideByZero :
    (0 < Config.P ∧ Config.P - 1 < Config.P ∧ 0 ≠ Config.P - 1) ∧
    isFieldCommand (.pchk 0) = false ∧ State.reset.err = false ∧
    next? (exec (.pchk 0) State.reset) (fun _ => true) = true := by decide +kernel

theorem witness_GroupLawCases : (Point.affine 1 2).InRange ∧ (Point.affine 1 2).InRange ∧
    (Point.affine 0 (Config.P - 1)).InRange ∧ ((1 : Nat) = 1 → (2 : Nat) = 2 ∧ (2 : Nat) ≠ 0) := by
  unfold Point.InRange; decide +kernel

/-- The hypotheses of PointAddStaysOnTheCurve and ScalarMulAddsScalars. -/
theorem witness_nonsingular_curve : (0 < Config.P ∧ 7 < Config.P ∧ singular 0 7 = false) ∧
    (Point.affine Config.Gx Config.Gy).InRange ∧
    onCurve 0 7 (.affine Config.Gx Config.Gy) = true := by
  unfold Point.InRange; decide +kernel

theorem witness_PointAddStaysOnTheCurve : flagDestination (.pdbl 1 0) = some 1 ∧
    singular twoG.curveA.toNat twoG.curveB.toNat = false ∧ twoG.err = false ∧
    next? (exec (.pdbl 1 0) twoG) (fun t => !t.err) = true := by decide +kernel

theorem witness_ErrIsStickyAndFirstCodeIsKept :
    Presented (withAccess State.reset (writeWordAccess 0x008 4)) (writeWordAccess 0x008 4) 0x008 [] ∧
    (writeWordAccess 0x008 4).Aligned32 0x008 ∧ (4#32).getLsbD 2 = true ∧
    next? (exec (.minv .P 2 0) { State.reset with err := true, code := 1 })
      (fun t => t.err && t.code == 1) = true ∧ AtReset State.reset :=
  ⟨presented_withAccess rfl rfl rfl (by decide), by unfold Access.Aligned32; decide, by decide,
    by decide +kernel,
    ⟨rfl, rfl, rfl, rfl, rfl, rfl, rfl, rfl, rfl, rfl, rfl, by decide⟩⟩

/-- CommandsIgnoreStatus: two states that differ in STATUS only, on a singular curve. -/
theorem witness_CommandsIgnoreStatus :
    ({ singularWithG with err := true, qr := true }).r = singularWithG.r ∧
    ({ singularWithG with err := true, qr := true }).draws = singularWithG.draws ∧
    ({ singularWithG with err := true, qr := true }).curveA = singularWithG.curveA := ⟨rfl, rfl, rfl⟩

theorem witness_CommandsWriteOnlyTheirFlags :
    next? (exec (.padd 2 0 1) State.reset) (fun t => t.done) = true ∧
    flagDestination (.padd 2 0 1) ≠ some 3 ∧ isFieldCommand (.mred .P 0 0) = true := by
  decide +kernel

theorem witness_CommandsLeaveTheRestOfTheWindow :
    next? (exec (.mred .P 15 0) State.reset) (fun t => t.done) = true ∧
    (∀ rd ∈ destinations (.mred .P 15 0), ∀ j < 8, 0x2DC ≠ 0x100 + 0x20 * rd.toNat + 4 * j) ∧
    0xFFC < Config.windowBytes := by decide +kernel

theorem witness_ErrFallsOnlyByClearOrReset :
    next? (step (withAccess { State.reset with err := true, code := 1 } (writeWordAccess 0x008 4)))
      (fun t => !t.err) = true := by decide +kernel

theorem witness_IrqFollowsTheEnabledFlags : (due 0x00213001).turn = .engine ∧
    (Presented (withAccess State.reset (writeWordAccess 0x008 6)) (writeWordAccess 0x008 6) 0x008 [] ∧
      (6#32).getLsbD 1 = true ∧ (6#32).getLsbD 2 = true) ∧
    Presented (withAccess State.reset (writeWordAccess 0x004 0)) (writeWordAccess 0x004 0) 0x004 [] ∧
    State.reset.busy = false :=
  ⟨by decide, ⟨presented_withAccess rfl rfl rfl (by decide), by decide, by decide⟩,
    presented_withAccess rfl rfl rfl (by decide), rfl⟩

theorem witness_IssueStoresTheWordAndSetsBusy :
    Presented (withAccess State.reset (writeWordAccess 0x004 0x00213001))
      (writeWordAccess 0x004 0x00213001) 0x004 [] ∧
    (writeWordAccess 0x004 0x00213001).Aligned32 0x004 ∧ State.reset.busy = false :=
  ⟨presented_withAccess rfl rfl rfl (by decide), by unfold Access.Aligned32; decide, rfl⟩

/-- Reads and writes at every boundary of the map, idle and busy. -/
theorem witness_window_boundaries : ∀ off ∈ [0x000, 0x004, 0x008, 0x00C, 0x010, 0x014, 0x018, 0x01C,
    0x03C, 0x040, 0x05C, 0x060, 0x07C, 0x080, 0x09C, 0x0A0, 0x0BC, 0x0C0, 0x0DC, 0x0E0, 0x0FC, 0x100,
    0x11C, 0x120, 0x2FC, 0x300, 0xFFC],
    (Presented (withAccess State.reset (readWordAccess off)) (readWordAccess off) off [] ∧
      (readWordAccess off).Aligned32 off) ∧
    (Presented (withAccess pending (writeWordAccess off 1)) (writeWordAccess off 1) off [] ∧
      (writeWordAccess off 1).Aligned32 off ∧ pending.busy = true) := by
  intro off h
  have hb : off < 4096 ∧ off % 4 = 0 := by
    revert off; decide
  exact ⟨⟨presented_withAccess rfl rfl (by simp [readWordAccess, State.base, State.reset]) hb.1,
      rfl, rfl, hb.2⟩,
    presented_withAccess rfl rfl (by simp [writeWordAccess, State.base, State.reset, pending]) hb.1,
      ⟨rfl, rfl, hb.2⟩, rfl⟩

/-- The locked offsets of R40 at their ends, and their neighbours that are not locked. -/
theorem witness_locked_offsets :
    (∀ off ∈ [0x004, 0x014, 0x040, 0x07C, 0x100, 0x2FC], LockedOffset off) ∧
    (∀ off ∈ [0x000, 0x008, 0x00C, 0x010, 0x018, 0x03C, 0x080, 0x0FC, 0x300], ¬ LockedOffset off) := by
  unfold LockedOffset; decide

theorem witness_MisfitAccessesAreRefused :
    Presented (withAccess State.reset (readWordAccess 0x006)) (readWordAccess 0x006) 0x006 [] ∧
    0x006 % 4 ≠ 0 ∧ ({ readWordAccess 0 with bytes := 2 }).bytes ≠ 4 ∧
    ({ readWordAccess 0 with lanes := 7 }).lanes ≠ 0xF#4 ∧
    ¬ (readWordAccess 0x006).Aligned32 0x006 :=
  ⟨presented_withAccess rfl rfl rfl (by decide), by decide, by decide, by decide, by
    unfold Access.Aligned32; decide⟩

theorem witness_Write256InstallsAnOperand :
    ({ State.reset with inputs := write256 (0x100 + 0x20 * 15) 5 }).rstN = true ∧
    ({ State.reset with inputs := write256 (0x100 + 0x20 * 15) 5 }).busy = false ∧
    (write256 (0x100 + 0x20 * 15) 5).length = 8 ∧
    State.reset.base + operandOffset 15 = 0x100 + 0x20 * 15 := by decide

theorem witness_ByteOrdersOfARegister : (List.replicate 32 (0xA5#8)).length = 32 := by decide

/-- The window's neighbours: the byte below BASE = 4096 and the first one after the window. -/
theorem witness_AccessOutsideTheWindowIsUnseen :
    let s := { State.reset with basePage := 1 }
    s.turn = .host ∧ (4095 < s.base ∧ s.base + 4096 ≤ 8192) ∧
      s.offsetOf? 4096 = some 0 ∧ s.offsetOf? 8191 = some 4095 := by decide

theorem witness_AttributesAreNotLookedAt : State.reset.turn = .host := by decide

theorem witness_HardResetRestoresEveryRegister :
    ({ pending with inputs := [.rstN false] }).turn = .host ∧
    ({ State.reset with rstN := false, inputs := [.rstN true] }).rstN = false := by decide

theorem witness_SoftResetRestoresEveryRegister :
    Presented (withAccess pending (writeWordAccess 0x018 1)) (writeWordAccess 0x018 1) 0x018 [] ∧
    (writeWordAccess 0x018 1).Aligned32 0x018 ∧ (1#32).getLsbD 0 = true :=
  ⟨presented_withAccess rfl rfl rfl (by decide), by unfold Access.Aligned32; decide, by decide⟩

theorem witness_SoftReset_pending : pending.rstN = true ∧ pending.busy = true ∧
    next? (step (withAccess pending (writeWordAccess 0x018 1))) (fun t => !t.busy) = true := by
  decide +kernel

theorem witness_ResetPointsAreTheIdentity : AtReset State.reset :=
  ⟨rfl, rfl, rfl, rfl, rfl, rfl, rfl, rfl, rfl, rfl, rfl, by decide⟩

theorem reset_inv : Inv State.reset :=
  { busy_not_done := by decide, err_iff_code := by decide, code_le := by decide,
    idle_wait := by decide, held_in_reset := by decide }

theorem pending_inv : Inv pending :=
  { busy_not_done := by decide, err_iff_code := by decide, code_le := by decide,
    idle_wait := by decide, held_in_reset := by decide }

theorem witness_EveryStepKeepsTheInvariant : Inv pending ∧ step pending = .next pending.hostTurn :=
  ⟨pending_inv, rfl⟩

theorem witness_PendingOperandsStayFixed : pending.rstN = true ∧ pending.busy = true ∧
    next? (step pending) (fun t => t.busy) = true := by decide +kernel

theorem witness_AcceptedCommandsComplete : pending.rstN = true ∧ pending.busy = true ∧
    (due 0x00213001).rstN = true ∧ (due 0x00213001).busy = true ∧ (due 0x00213001).wait = 0 := by
  decide

theorem witness_IdleMachineIsQuiescent : Inv State.reset ∧ State.reset.rstN = true ∧
    State.reset.busy = false ∧ State.reset.inputs = [] := ⟨reset_inv, rfl, rfl, rfl⟩

theorem witness_WindowReadAfterWrite : ((0x040 ≤ 0x07C ∧ 0x07C < 0x080) ∧ 0x07C % 4 = 0) ∧
    ((0x100 ≤ 0x2FC ∧ 0x2FC < 0x300) ∧ 0x2FC % 4 = 0) ∧ 0xFFC < Config.windowBytes := by decide

end Sys2Proof.Tests
end

section
/-! PROOFS. The result of a command as a function of the state, what it reads and what it writes
(10_state.md R30, R32; R59). -/

namespace Sys2Proof.Machine

/-! ### The result of a command -/

/-- The pure result that a command hands to the completion step (R59). -/
def resultOf (i : Instr) (s : State) : CommandResult :=
  match i with
  | .madd m rd rs1 rs2 => s.maddResult m rd rs1 rs2
  | .msub m rd rs1 rs2 => s.msubResult m rd rs1 rs2
  | .mmul m rd rs1 rs2 => s.mmulResult m rd rs1 rs2
  | .mont m rd rs1 rs2 => s.montResult m rd rs1 rs2
  | .mred m rd rs1 => s.mredResult m rd rs1
  | .mpow m signed rd rs1 rs2 => s.mpowResult m signed rd rs1 rs2
  | .minv m rd rs1 => s.minvResult m rd rs1
  | .mdiv m rd rs1 rs2 => s.mdivResult m rd rs1 rs2
  | .msqrt rd rs1 => s.msqrtResult rd rs1
  | .padd pd ps1 ps2 => s.paddResult pd ps1 ps2
  | .pdbl pd ps1 => s.pdblResult pd ps1
  | .pneg pd ps1 => s.pnegResult pd ps1
  | .pchk ps1 => s.pchkResult ps1
  | .pmul rn pd ps1 rk => s.pmulResult rn pd (s.pt (pointField ps1)) rk
  | .pmulG rn pd rk => s.pmulResult rn pd generator rk

/-- Every command is the completion step with its result. -/
theorem exec_eq_complete_resultOf (i : Instr) (s : State) :
    exec i s = .next (s.complete (resultOf i s)) := by
  cases i <;> rfl

/-! ### What a result reads -/

/-- The two states agree on everything a command reads, the draw counter apart (R32). -/
structure SameOperands (s t : State) : Prop where
  r : t.r = s.r
  pinf : t.pinf = s.pinf
  curveA : t.curveA = s.curveA
  curveB : t.curveB = s.curveB

section
variable {s t : State} (h : SameOperands s t)
include h

theorem SameOperands.getR (i : Reg) : t.getR i = s.getR i := by
  simp only [State.getR, h.r]

theorem SameOperands.nat (i : Reg) : t.nat i = s.nat i := by
  simp only [State.nat, h.getR]

theorem SameOperands.pt (k : PointReg) : t.pt k = s.pt k := by
  have hf : t.isInf k = s.isInf k := congrArg (·.getLsbD k.toNat) h.pinf
  simp only [State.pt, hf, h.nat]

theorem SameOperands.element (m : Modulus) (i : Reg) : t.element m i = s.element m i := by
  simp only [State.element, h.nat]

theorem SameOperands.checkSource (q : Point) : t.checkSource q = s.checkSource q := by
  simp only [State.checkSource, State.checkCoefficients, State.checkCurve, h.curveA, h.curveB]

theorem SameOperands.checkSources (p q : Point) : t.checkSources p q = s.checkSources p q := by
  simp only [State.checkSources, State.checkCoefficients, State.checkCurve, h.curveA, h.curveB]

/-- PMUL's point: the draw is looked at on a singular curve only (R92). -/
theorem SameOperands.multiple
    (hd : singular s.curveA.toNat s.curveB.toNat = true → t.draws = s.draws) (k : Nat) (q : Point) :
    t.multiple k q = s.multiple k q := by
  simp only [State.multiple, h.curveA, h.curveB]
  split
  next hs => rw [hd hs]
  next => rfl

theorem SameOperands.pmulResult
    (hd : singular s.curveA.toNat s.curveB.toNat = true → t.draws = s.draws) (rn : Bool) (pd : Reg)
    (q : Point) (rk : Reg) : t.pmulResult rn pd q rk = s.pmulResult rn pd q rk := by
  simp only [State.pmulResult, State.scalarOf, h.checkSource, h.nat, h.multiple hd]

/-- The result of a command is a function of what it reads. -/
theorem SameOperands.resultOf_eq
    (hd : singular s.curveA.toNat s.curveB.toNat = true → t.draws = s.draws) (i : Instr) :
    resultOf i t = resultOf i s := by
  cases i with
  | madd m rd rs1 rs2 => simp only [resultOf, State.maddResult, h.element]
  | msub m rd rs1 rs2 => simp only [resultOf, State.msubResult, h.element]
  | mmul m rd rs1 rs2 => simp only [resultOf, State.mmulResult, h.element]
  | mont m rd rs1 rs2 => simp only [resultOf, State.montResult, h.element]
  | mred m rd rs1 => simp only [resultOf, State.mredResult, h.nat]
  | mpow m signed rd rs1 rs2 => simp only [resultOf, State.mpowResult, h.element, h.getR]
  | minv m rd rs1 => simp only [resultOf, State.minvResult, h.element]
  | mdiv m rd rs1 rs2 => simp only [resultOf, State.mdivResult, h.element]
  | msqrt rd rs1 => simp only [resultOf, State.msqrtResult, h.element]
  | padd pd ps1 ps2 =>
    simp only [resultOf, State.paddResult, h.pt, h.checkSources, h.curveA]
  | pdbl pd ps1 => simp only [resultOf, State.pdblResult, h.pt, h.checkSource, h.curveA]
  | pneg pd ps1 => simp only [resultOf, State.pnegResult, h.pt, h.checkSource]
  | pchk ps1 => simp only [resultOf, State.pchkResult, h.pt, h.checkSource]
  | pmul rn pd ps1 rk => simp only [resultOf, h.pt, h.pmulResult hd]
  | pmulG rn pd rk => simp only [resultOf, h.pmulResult hd]

/-- One write of W keeps two states in agreement. -/
theorem SameOperands.applyWrite (x : Write) : SameOperands (s.applyWrite x) (t.applyWrite x) where
  r := by
    refine State.r_ext fun i => ?_
    cases x with
    | reg j v => simp only [State.applyWrite, State.getR_setR, h.getR]
    | point k q => simp only [State.applyWrite, State.ptWrite_getR, h.getR]
    | qr b => exact h.getR i
  pinf := by
    cases x with
    | reg j v => exact h.pinf
    | point k q => simp only [State.applyWrite, State.ptWrite_pinf, h.pinf]
    | qr b => exact h.pinf
  curveA := by simpa using h.curveA
  curveB := by simpa using h.curveB

end

/-- A commit keeps two states in agreement. -/
theorem SameOperands.commit {s t : State} (h : SameOperands s t) (ws : List Write) :
    SameOperands (s.commit ws) (t.commit ws) := by
  induction ws generalizing s t with
  | nil => exact h
  | cons x xs ih => exact ih (h.applyWrite x)

/-- QR after a commit depends on QR before it and on the writes alone. -/
theorem State.commit_qr_congr {s t : State} (h : t.qr = s.qr) (ws : List Write) :
    (t.commit ws).qr = (s.commit ws).qr := by
  induction ws generalizing s t with
  | nil => exact h
  | cons x xs ih =>
    refine ih ?_
    cases x with
    | reg i v => exact h
    | point k q => simpa [State.applyWrite] using h
    | qr b => rfl

/-- Settles O32: the result is the same in both states, and so is what the completion writes. -/
theorem commandsIgnoreStatus : Obligations.CommandsIgnoreStatus := by
  intro i s s' hr hpinf ha hb hd
  have h : SameOperands s s' := ⟨hr, hpinf, ha, hb⟩
  refine ⟨_, _, exec_eq_complete_resultOf i s, exec_eq_complete_resultOf i s', ?_⟩
  rw [h.resultOf_eq hd]
  cases resultOf i s with
  | error e =>
    exact ⟨hr, hpinf, .inr ⟨e, s.complete_failed e, s'.complete_failed e⟩⟩
  | ok ws =>
    exact ⟨(h.commit ws).r, (h.commit ws).pinf,
      .inl ⟨s.complete_succeeded ws, s'.complete_succeeded ws, fun hq => State.commit_qr_congr hq ws⟩⟩

/-! ### What a result writes -/

/-- The writes a command's rule may ask for: its destination registers, the point register of its
flag, and QR for MSQRT (R30). -/
def MayWrite (i : Instr) : Write → Prop
  | .reg rd _ => rd ∈ destinations i
  | .point k _ => flagDestination i = some k
  | .qr _ => ∃ rd rs1, i = .msqrt rd rs1

/-- Every write of the result is one the command may make; an error makes none. -/
def OnlyWrites (i : Instr) (c : CommandResult) : Prop := ∀ ws, c = .ok ws → ∀ x ∈ ws, MayWrite i x

theorem OnlyWrites.ok {i : Instr} {ws : List Write} (h : ∀ x ∈ ws, MayWrite i x) :
    OnlyWrites i (.ok ws) := by
  rintro _ ⟨⟩; exact h

theorem OnlyWrites.bind {i : Instr} {α : Type} (x : Except ErrorCode α) {f : α → CommandResult}
    (h : ∀ a, OnlyWrites i (f a)) : OnlyWrites i (x >>= f) := by
  cases x with
  | error e => rintro _ ⟨⟩
  | ok a => exact h a

theorem OnlyWrites.writeReg {i : Instr} {rd : Reg} (h : destinations i = [rd]) (v : Nat) :
    OnlyWrites i (writeReg rd v) :=
  .ok (List.forall_mem_singleton.2 (by simp [MayWrite, h]))

theorem OnlyWrites.writePoint {i : Instr} {pd : Reg}
    (h : flagDestination i = some (pointField pd)) (q : Point) : OnlyWrites i (writePoint pd q) :=
  .ok (List.forall_mem_singleton.2 h)

theorem onlyWrites_resultOf (i : Instr) (s : State) : OnlyWrites i (resultOf i s) := by
  cases i with
  | madd m rd rs1 rs2 => exact .bind _ fun _ => .bind _ fun _ => .writeReg rfl _
  | msub m rd rs1 rs2 => exact .bind _ fun _ => .bind _ fun _ => .writeReg rfl _
  | mmul m rd rs1 rs2 => exact .bind _ fun _ => .bind _ fun _ => .writeReg rfl _
  | mont m rd rs1 rs2 => exact .bind _ fun _ => .bind _ fun _ => .writeReg rfl _
  | mred m rd rs1 => exact .writeReg rfl _
  | mpow m signed rd rs1 rs2 => exact .bind _ fun _ => .writeReg rfl _
  | minv m rd rs1 => exact .bind _ fun _ => .bind _ fun _ => .writeReg rfl _
  | mdiv m rd rs1 rs2 =>
    exact .bind _ fun _ => .bind _ fun _ => .bind _ fun _ => .writeReg rfl _
  | msqrt rd rs1 =>
    exact .bind _ fun _ => .ok (by simp [MayWrite, destinations])
  | padd pd ps1 ps2 => exact .bind _ fun _ => .writePoint rfl _
  | pdbl pd ps1 => exact .bind _ fun _ => .writePoint rfl _
  | pneg pd ps1 => exact .bind _ fun _ => .writePoint rfl _
  | pchk ps1 => exact .bind _ fun _ => .ok (List.forall_mem_nil _)
  | pmul rn pd ps1 rk => exact .bind _ fun _ => .writePoint rfl _
  | pmulG rn pd rk => exact .bind _ fun _ => .writePoint rfl _

/-- A commit without a write of QR keeps it. -/
theorem State.commit_qr_of_forall (s : State) {ws : List Write} (h : ∀ b, Write.qr b ∉ ws) :
    (s.commit ws).qr = s.qr := by
  induction ws generalizing s with
  | nil => rfl
  | cons x xs ih =>
    have hx : (s.applyWrite x).qr = s.qr := by
      cases x with
      | reg i v => rfl
      | point k q => exact s.ptWrite_qr k q
      | qr b => exact absurd List.mem_cons_self (h b)
    exact (ih _ fun b hb => h b (List.mem_cons_of_mem _ hb)).trans hx

/-- A commit without a write of the point register k keeps its flag. -/
theorem State.commit_isInf_of_forall (s : State) {k : PointReg} {ws : List Write}
    (h : ∀ q, Write.point k q ∉ ws) : (s.commit ws).isInf k = s.isInf k := by
  induction ws generalizing s with
  | nil => rfl
  | cons x xs ih =>
    have hx : (s.applyWrite x).isInf k = s.isInf k := by
      cases x with
      | reg i v => rfl
      | qr b => rfl
      | point j q =>
        have hne : k ≠ j := by
          rintro rfl; exact h q List.mem_cons_self
        simp only [State.applyWrite, State.isInf, State.ptWrite_pinf, setFlag_ne _ _ hne]
    exact (ih _ fun q hq => h q (List.mem_cons_of_mem _ hq)).trans hx

/-- PINF is its eight flags. -/
theorem State.pinf_ext {s t : State} (h : ∀ k, t.isInf k = s.isInf k) : t.pinf = s.pinf := by
  apply BitVec.eq_of_getLsbD_eq
  intro i hi
  have := h (BitVec.ofNat 3 i)
  simpa [State.isInf, Nat.mod_eq_of_lt hi] using this

theorem flagDestination_of_isFieldCommand {i : Instr} (h : isFieldCommand i = true) :
    flagDestination i = none := by
  cases i <;> simp_all [isFieldCommand, flagDestination]

/-- No command but MSQRT changes QR. -/
theorem complete_resultOf_qr {i : Instr} (s : State) (h : ∀ rd rs1, i ≠ .msqrt rd rs1) :
    (s.complete (resultOf i s)).qr = s.qr := by
  have hw := onlyWrites_resultOf i s
  cases hc : resultOf i s with
  | error e => rfl
  | ok ws =>
    refine s.commit_qr_of_forall fun b hb => ?_
    obtain ⟨rd, rs1, e⟩ := hw ws hc _ hb
    exact h rd rs1 e

/-- A command changes no identity flag but that of its destination. -/
theorem complete_resultOf_isInf {i : Instr} (s : State) {k : PointReg}
    (h : flagDestination i ≠ some k) : (s.complete (resultOf i s)).isInf k = s.isInf k := by
  have hw := onlyWrites_resultOf i s
  cases hc : resultOf i s with
  | error e => rfl
  | ok ws => exact s.commit_isInf_of_forall fun q hq => h (hw ws hc _ hq)

/-- Settles O34, by what the result of each command may write. -/
theorem commandsWriteOnlyTheirFlags : Obligations.CommandsWriteOnlyTheirFlags := by
  intro i s t ht
  rw [exec_eq_complete_resultOf] at ht
  cases ht
  refine ⟨complete_resultOf_qr s, fun k => complete_resultOf_isInf s, fun hf => ?_⟩
  refine State.pinf_ext fun k => complete_resultOf_isInf s ?_
  rw [flagDestination_of_isFieldCommand hf]
  exact nofun

end Sys2Proof.Machine
end

section
/-! PROOFS. What a turn of the host side can do to the registers, and what every step keeps: the
invariant, ERR, and the operands of a pending command (10_state.md R25, R30, R32; R99, R108). -/

namespace Sys2Proof.Machine

/-! ### A turn of the host side -/

/-- An access that is not refused is aligned, and writes no locked slot while BUSY = 1 (R37, R40). -/
theorem State.aligned_of_not_refuses {s : State} {a : Access} {off : Nat}
    (h : s.refuses a off = false) : a.Aligned32 off := by
  rw [← Access.isWordAt_iff]
  simp only [State.refuses, Bool.or_eq_false_iff, Bool.not_eq_false'] at h
  exact h.1

theorem State.unlocked_of_not_refuses {s : State} {a : Access} {off : Nat} {v : Word}
    (h : s.refuses a off = false) (hk : a.kind = .write v) (hb : s.busy = true) :
    (slotAt off).lockedWhileBusy = false := by
  simp only [State.refuses, hk, hb, Bool.or_eq_false_iff, Bool.true_and] at h
  exact h.2

/-- While reset is not asserted, a turn of the host side leaves every register alone, or asserts the
reset pin, or serves one write. -/
theorem State.hostTurn_effect {s : State} (hr : s.rstN = true) :
    (∃ rest reply, s.hostTurn = { s.beforeServing rest with reply := reply }) ∨
    (∃ rest, s.inputs = .rstN false :: rest ∧
      s.hostTurn = { (s.beforeServing rest).resetRegisters with rstN := false }) ∨
    (∃ a off v rest, s.inputs = .access a :: rest ∧ a.addr = s.base + off ∧
      off < Config.windowBytes ∧ a.kind = .write v ∧ a.Aligned32 off ∧
      (s.busy = true → (slotAt off).lockedWhileBusy = false) ∧
      s.hostTurn =
        { (s.beforeServing rest).writeSlot (slotAt off) v with reply := some (.write .OKAY) }) := by
  obtain ⟨-, ht⟩ | ⟨rest, -, ht⟩ | ⟨rest, hi, ht⟩ | ⟨a, rest, -, -, ht⟩ |
    ⟨a, off, rest, hi, haddr, hoff, ht⟩ := State.hostTurn_cases hr
  · exact .inl ⟨[], s.reply, ht⟩
  · exact .inl ⟨rest, s.reply, ht⟩
  · exact .inr (.inl ⟨rest, hi, ht⟩)
  · exact .inl ⟨rest, none, ht⟩
  · obtain ⟨-, hs⟩ | ⟨-, -, hs⟩ | ⟨v, hn, hk, hs⟩ := (s.beforeServing rest).serveAt_cases a off
    · exact .inl ⟨rest, _, ht.trans hs⟩
    · exact .inl ⟨rest, _, ht.trans hs⟩
    · exact .inr (.inr ⟨a, off, v, rest, hi, haddr, hoff, hk, State.aligned_of_not_refuses hn,
        State.unlocked_of_not_refuses hn hk, ht.trans hs⟩)

/-- While reset is asserted, a turn of the host side leaves every register at its reset value. -/
theorem State.hostTurn_held {s : State} (hr : s.rstN = false) :
    s.hostTurn = s.hostTurn.resetRegisters := by
  have hp : s.pass = s.resetRegisters := by simp [State.pass, hr]
  unfold State.hostTurn
  rw [hp]
  cases s.inputs with
  | nil => rfl
  | cons i rest =>
    cases i with
    | rstN level => cases level <;> rfl
    | access a =>
      simp only [State.receive, State.serveAccess, State.resetRegisters_rstN, hr]
      split <;> rfl

/-! ### The invariant -/

/-- A state that a reset would not change has the invariant. -/
theorem Inv.of_eq_resetRegisters {t : State} (h : t = t.resetRegisters) : Inv t := by
  have ha : AtReset t := .of_eq h.symm
  have hw : t.wait = 0 := congrArg State.wait h
  exact
    { busy_not_done := fun _ => ha.done
      err_iff_code := iff_of_true ha.err ha.code
      code_le := by simp [ha.code]
      idle_wait := fun _ => hw
      held_in_reset := fun _ => h }

/-- Settles O52: a reset changes nothing in the state after reset. -/
theorem resetStateHoldsTheResetValues : Obligations.ResetStateHoldsTheResetValues :=
  ⟨.of_eq rfl, rfl, .of_eq_resetRegisters rfl⟩

/-- The flags, CODE and the pin are the same, and no latency is added. -/
structure SameControl (s t : State) : Prop where
  busy : t.busy = s.busy
  done : t.done = s.done
  err : t.err = s.err
  code : t.code = s.code
  rstN : t.rstN = s.rstN
  wait_le : t.wait ≤ s.wait

/-- Of all writes only those to CMD, STATUS and CTRL touch the flags, CODE or the latency (R43). -/
theorem State.writeSlot_control (s : State) (slot : Slot) (v : Word) :
    (slot = .cmd ∧ s.writeSlot slot v = s.issue v) ∨
    (slot = .status ∧ s.writeSlot slot v = s.writeStatus v) ∨
    (slot = .ctrl ∧ v.getLsbD 0 = true ∧ s.writeSlot slot v = s.resetRegisters) ∨
    SameControl s (s.writeSlot slot v) := by
  cases slot with
  | cmd => exact .inl ⟨rfl, rfl⟩
  | status => exact .inr (.inl ⟨rfl, rfl⟩)
  | ctrl =>
    by_cases hv : v.getLsbD 0 = true
    · exact .inr (.inr (.inl ⟨rfl, hv, if_pos hv⟩))
    · have e : s.writeSlot .ctrl v = s := if_neg hv
      exact .inr (.inr (.inr (e.symm ▸ ⟨rfl, rfl, rfl, rfl, rfl, le_rfl⟩)))
  | ie | pinf | curveA _ | curveB _ | operand _ _ | id | errcode | constP _ | constN _ | constGx _
  | constGy _ | reserved => exact .inr (.inr (.inr ⟨rfl, rfl, rfl, rfl, rfl, le_rfl⟩))

theorem Inv.of_sameControl {s t : State} (hs : Inv s) (hr : s.rstN = true) (h : SameControl s t) :
    Inv t where
  busy_not_done := by rw [h.busy, h.done]; exact hs.busy_not_done
  err_iff_code := by rw [h.err, h.code]; exact hs.err_iff_code
  code_le := by rw [h.code]; exact hs.code_le
  idle_wait hb := Nat.eq_zero_of_le_zero (h.wait_le.trans_eq (hs.idle_wait (h.busy ▸ hb)))
  held_in_reset h0 := by rw [h.rstN, hr] at h0; cases h0

theorem ErrorCode.toCode_ne_zero (e : ErrorCode) : e.toCode ≠ 0 := by cases e <;> decide

theorem ErrorCode.toCode_le (e : ErrorCode) : e.toCode.toNat ≤ 4 := by cases e <;> decide

/-- Raising an error leaves a CODE that fits ERR = 1, the first error's or its own (R99). -/
theorem Inv.code_raiseError {s : State} (hs : Inv s) (e : ErrorCode) :
    (s.raiseError e).code ≠ 0 ∧ (s.raiseError e).code.toNat ≤ 4 := by
  rw [State.raiseError_code]
  split
  next he => exact ⟨fun h0 => by simp [hs.err_iff_code.2 h0] at he, hs.code_le⟩
  next => exact ⟨e.toCode_ne_zero, e.toCode_le⟩

/-- A completion step keeps the invariant. -/
theorem Inv.complete {s : State} (hs : Inv s) (hr : s.rstN = true) (hw : s.wait = 0)
    (c : CommandResult) : Inv (s.complete c) where
  busy_not_done hb := by cases hb
  err_iff_code := by
    cases c with
    | error e => exact iff_of_false (by simp) (hs.code_raiseError e).1
    | ok ws => simpa using hs.err_iff_code
  code_le := by
    cases c with
    | error e => exact (hs.code_raiseError e).2
    | ok ws => simpa using hs.code_le
  idle_wait _ := by simpa using hw
  held_in_reset h0 := by simp [hr] at h0

theorem Inv.issue {s : State} (hs : Inv s) (hr : s.rstN = true) (v : Word) : Inv (s.issue v) where
  busy_not_done _ := rfl
  err_iff_code := hs.err_iff_code
  code_le := hs.code_le
  idle_wait hb := by cases hb
  held_in_reset h0 := by simp [hr] at h0

/-- The acknowledgement clears ERR and CODE together (R99). -/
theorem Inv.writeStatus {s : State} (hs : Inv s) (hr : s.rstN = true) (v : Word) :
    Inv (s.writeStatus v) where
  busy_not_done hb := by simp [hs.busy_not_done hb]
  err_iff_code := by
    rw [State.writeStatus_err, State.writeStatus_code]
    cases v.getLsbD 2 with
    | false => simpa using hs.err_iff_code
    | true => simp
  code_le := by
    rw [State.writeStatus_code]
    split
    · decide
    · exact hs.code_le
  idle_wait := hs.idle_wait
  held_in_reset h0 := by simp [hr] at h0

/-- A write to any slot keeps the invariant. -/
theorem Inv.writeSlot {s : State} (hs : Inv s) (hr : s.rstN = true) (slot : Slot) (v : Word) :
    Inv (s.writeSlot slot v) := by
  obtain ⟨-, e⟩ | ⟨-, e⟩ | ⟨-, -, e⟩ | h := s.writeSlot_control slot v
  · exact e ▸ hs.issue hr v
  · exact e ▸ hs.writeStatus hr v
  · exact e ▸ .of_eq_resetRegisters rfl
  · exact hs.of_sameControl hr h

theorem Inv.beforeServing {s : State} (hs : Inv s) (hr : s.rstN = true) (rest : List Input) :
    Inv (s.beforeServing rest) :=
  hs.of_sameControl hr ⟨rfl, rfl, rfl, rfl, rfl, Nat.sub_le _ _⟩

/-- The reply on the bus is no part of the invariant. -/
theorem Inv.withReply {s : State} (hs : Inv s) (reply : Option Reply) :
    Inv { s with reply := reply } where
  busy_not_done := hs.busy_not_done
  err_iff_code := hs.err_iff_code
  code_le := hs.code_le
  idle_wait := hs.idle_wait
  held_in_reset h0 := congrArg (fun t : State => { t with reply := reply }) (hs.held_in_reset h0)

/-- A turn of the host side keeps the invariant. -/
theorem Inv.hostTurn {s : State} (hs : Inv s) : Inv s.hostTurn := by
  cases hr : s.rstN with
  | false => exact .of_eq_resetRegisters (State.hostTurn_held hr)
  | true =>
    obtain ⟨rest, reply, e⟩ | ⟨rest, -, e⟩ | ⟨a, off, v, rest, -, -, -, -, -, -, e⟩ :=
      State.hostTurn_effect hr <;> rw [e]
    · exact (hs.beforeServing hr rest).withReply reply
    · exact .of_eq_resetRegisters rfl
    · exact ((hs.beforeServing hr rest).writeSlot hr _ v).withReply _

/-- Settles O53: completions and turns of the host side keep the invariant. -/
theorem everyStepKeepsTheInvariant : Obligations.EveryStepKeepsTheInvariant := by
  intro s t hs ht
  obtain ⟨hr, -, hw, c, -, e⟩ | ⟨-, e⟩ := step_cases s <;> cases e.symm.trans ht
  · exact hs.complete hr hw c
  · exact hs.hostTurn

/-! ### Where ERR falls -/

theorem State.err_complete {s : State} (he : s.err = true) (c : CommandResult) :
    (s.complete c).err = true := by
  cases c with
  | error e => rfl
  | ok ws => simpa using he

/-- Among the writes only STATUS with bit 2 and CTRL with bit 0 clear ERR (R99, R110). -/
theorem State.err_falls_writeSlot {s : State} {slot : Slot} {v : Word} (he : s.err = true)
    (h : (s.writeSlot slot v).err = false) :
    (slot = .status ∧ v.getLsbD 2 = true) ∨ (slot = .ctrl ∧ v.getLsbD 0 = true) := by
  obtain ⟨-, e⟩ | ⟨hs, e⟩ | ⟨hs, hv, -⟩ | e := s.writeSlot_control slot v
  · rw [e, State.issue_err, he] at h; cases h
  · rw [e] at h
    exact .inl ⟨hs, by simpa [he] using h⟩
  · exact .inr ⟨hs, hv⟩
  · rw [e.err, he] at h; cases h

theorem offset_of_slotAt_status {off : Nat} (h : slotAt off = .status) : off = 0x008 := by
  have := slotOf_slotAt off
  rw [h] at this
  cases this; assumption

theorem offset_of_slotAt_ctrl {off : Nat} (h : slotAt off = .ctrl) : off = 0x018 := by
  have := slotOf_slotAt off
  rw [h] at this
  cases this; assumption

/-- Settles O36: a completion keeps ERR at 1, and of what the host side can do only the reset pin,
the acknowledgement and a soft reset clear it. -/
theorem errFallsOnlyByClearOrReset : Obligations.ErrFallsOnlyByClearOrReset := by
  intro s t ht he hf
  cases hr : s.rstN with
  | false => exact .inl rfl
  | true =>
    right
    obtain ⟨-, -, -, c, -, e⟩ | ⟨hturn, e⟩ := step_cases s <;> cases e.symm.trans ht
    · rw [State.err_complete he c] at hf; cases hf
    · obtain ⟨rest, reply, e⟩ | ⟨rest, hi, -⟩ |
        ⟨a, off, v, rest, hi, haddr, hoff, hk, hal, -, e⟩ := State.hostTurn_effect hr
      · rw [e] at hf
        exact absurd (he.symm.trans hf) (by decide)
      · exact .inl ⟨rest, hi⟩
      · rw [e] at hf
        refine .inr ⟨a, off, v, rest, ⟨hr, hturn, hi, haddr, hoff⟩, hk, hal, ?_⟩
        exact (State.err_falls_writeSlot (s := s.beforeServing rest) he hf).imp
          (.imp_left offset_of_slotAt_status) (.imp_left offset_of_slotAt_ctrl)

/-! ### A pending command -/

/-- The two states agree on the command word, on everything a command reads, on QR and on the
latency still to pass. -/
structure SamePending (s t : State) : Prop extends SameOperands s t where
  cmd : t.cmd = s.cmd
  qr : t.qr = s.qr
  wait : t.wait = s.wait

/-- A write to a slot that is not locked is an acknowledgement, a write of IE, a soft reset, or has no
effect (R40). -/
theorem State.writeSlot_unlocked (s : State) {slot : Slot} (v : Word)
    (h : slot.lockedWhileBusy = false) :
    s.writeSlot slot v = s.writeStatus v ∨ s.writeSlot slot v = s.writeIE v ∨
      s.writeSlot slot v = s.resetRegisters ∨ s.writeSlot slot v = s := by
  obtain ⟨rfl, -⟩ | ⟨-, e⟩ | ⟨-, e⟩ | ⟨rfl, -⟩ | ⟨-, -, e⟩ | ⟨_, rfl, -⟩ | ⟨_, rfl, -⟩ |
    ⟨_, _, rfl, -⟩ | e := s.writeSlot_cases slot v
  · cases h
  · exact .inl e
  · exact .inr (.inl e)
  · cases h
  · exact .inr (.inr (.inl e))
  · cases h
  · cases h
  · cases h
  · exact .inr (.inr (.inr e))

theorem State.samePending_writeSlot {s : State} {slot : Slot} {v : Word}
    (h : slot.lockedWhileBusy = false) (hb : (s.writeSlot slot v).busy = true) :
    SamePending s (s.writeSlot slot v) := by
  obtain e | e | e | e := s.writeSlot_unlocked v h <;> rw [e] at hb ⊢
  · exact ⟨⟨rfl, rfl, rfl, rfl⟩, rfl, rfl, rfl⟩
  · exact ⟨⟨rfl, rfl, rfl, rfl⟩, rfl, rfl, rfl⟩
  · cases hb
  · exact ⟨⟨rfl, rfl, rfl, rfl⟩, rfl, rfl, rfl⟩

/-- A turn of the host side after which the command is still pending has passed one turn of the
latency, and kept all the command reads. -/
theorem State.samePending_hostTurn {s : State} (hr : s.rstN = true) (hb : s.busy = true)
    (ht : s.hostTurn.busy = true) : ∃ rest, SamePending (s.beforeServing rest) s.hostTurn := by
  obtain ⟨rest, reply, e⟩ | ⟨rest, -, e⟩ | ⟨a, off, v, rest, -, -, -, -, -, hlock, e⟩ :=
    State.hostTurn_effect hr <;> rw [e] at ht ⊢
  · exact ⟨rest, ⟨rfl, rfl, rfl, rfl⟩, rfl, rfl, rfl⟩
  · cases ht
  · have h := State.samePending_writeSlot (s := s.beforeServing rest) (hlock hb) ht
    exact ⟨rest, ⟨h.r, h.pinf, h.curveA, h.curveB⟩, h.cmd, h.qr, h.wait⟩

/-- On the host side's turn a pending command has latency left. -/
theorem State.wait_pos_of_host {s : State} (hr : s.rstN = true) (hb : s.busy = true)
    (h : s.turn = .host) : 0 < s.wait := by
  refine Nat.pos_of_ne_zero fun hw => ?_
  simp [State.turn, hr, hb, hw] at h

/-- Settles O54: a completion ends the command, so the step was a turn of the host side. -/
theorem pendingOperandsStayFixed : Obligations.PendingOperandsStayFixed := by
  intro s t hr hb ht htb
  obtain ⟨-, -, -, c, -, e⟩ | ⟨hturn, e⟩ := step_cases s <;> cases e.symm.trans ht
  · cases htb
  · obtain ⟨rest, h⟩ := State.samePending_hostTurn hr hb htb
    have hw : s.hostTurn.wait = s.wait - 1 := h.wait
    have hpos := State.wait_pos_of_host hr hb hturn
    exact ⟨h.cmd, h.r, h.pinf, h.curveA, h.curveB, h.qr, by omega⟩

end Sys2Proof.Machine
end

section
/-! PROOFS. The generator's order (R21, R91): a run of the model's own double-and-add. -/

-- The evaluation takes several gigabytes while it runs: nothing else is checked beside it.
set_option Elab.async false

namespace Sys2Proof.Machine

theorem generator_onCurve : onCurve 0 7 generator = true := by decide +kernel

/-- The loop of R90 on all 256 bits of N, evaluated in the kernel. -/
theorem scalarMul_N_generator : scalarMul 0 Config.N generator = .inf := by decide +kernel

/-- Settles O29. -/
theorem generatorHasOrderN : Obligations.GeneratorHasOrderN :=
  ⟨generator_onCurve, scalarMul_N_generator⟩

end Sys2Proof.Machine
end

section
/-! PROOFS. One access presented on the bus: when it is refused, what a read answers, and what a
write does to the registers (20_memory.md R34, R36 to R40, R42, R43). -/

namespace Sys2Proof.Machine

/-! ### Which accesses are refused -/

/-- A read is refused exactly if it does not fit (R37). -/
theorem State.refuses_read_iff (s : State) {a : Access} (off : Nat) (hk : a.kind = .read) :
    s.refuses a off = true ↔ ¬ a.Aligned32 off := by
  simp [State.refuses, hk, ← Access.isWordAt_iff]

/-- A write is refused exactly if it does not fit or goes to a locked offset while BUSY = 1 (R37,
R40). -/
theorem State.refuses_write_iff (s : State) {a : Access} (off : Nat) {v : Word}
    (hk : a.kind = .write v) :
    s.refuses a off = true ↔ ¬ a.Aligned32 off ∨ (s.busy = true ∧ LockedOffset off) := by
  simp [State.refuses, hk, ← Access.isWordAt_iff, ← slotAt_locked]

/-! ### The next step serves a presented access -/

/-- What is known of the registers after an access may be weakened. -/
theorem Served.mono {s : State} {rest : List Input} {reply : Reply} {post post' : State → Prop}
    (h : Served s rest reply post) (himp : ∀ t, post t → post' t) : Served s rest reply post' := by
  obtain ⟨t, ht, hreply, hin, hbase, hrst, hpost⟩ := h
  exact ⟨t, ht, hreply, hin, hbase, hrst, himp t hpost⟩

/-- Serving an access changes no register if it only answers. -/
theorem SameRegisters.beforeServing_withReply (s : State) (rest : List Input)
    (reply : Option Reply) : SameRegisters s { s.beforeServing rest with reply := reply } := by
  constructor <;> rfl

/-- The registers determine the interrupt line (R100). -/
theorem SameRegisters.irq {s t : State} (h : SameRegisters s t) : t.irq = s.irq := by
  simp only [State.irq, h.done, h.doneIE, h.err, h.errIE]

/-- No write touches the bus, BASE or the pin. -/
theorem State.writeSlot_pins (s : State) (slot : Slot) (v : Word) :
    (s.writeSlot slot v).inputs = s.inputs ∧ (s.writeSlot slot v).basePage = s.basePage ∧
      (s.writeSlot slot v).rstN = s.rstN := by
  cases slot with
  | ctrl => simp only [State.writeSlot]; split <;> exact ⟨rfl, rfl, rfl⟩
  | _ => exact ⟨rfl, rfl, rfl⟩

section
variable {s : State} {a : Access} {off : Nat} {rest : List Input} (h : Presented s a off rest)
include h

/-- A refused access changes no register (R38). -/
theorem Presented.served_refused (hr : s.refuses a off = true) :
    Served s rest (refusedReply a.kind) (SameRegisters s) :=
  ⟨_, h.step_eq.trans (congrArg _ (if_pos hr)), rfl, rfl, rfl, rfl,
    .beforeServing_withReply s rest _⟩

/-- A read that is not refused answers the word of its slot (R42). -/
theorem Presented.served_read (hk : a.kind = .read) (hal : a.Aligned32 off) :
    Served s rest (.read .OKAY (s.readSlot (slotAt off))) (SameRegisters s) := by
  have hr : (s.beforeServing rest).refuses a off = false := by
    rw [← Bool.not_eq_true, State.refuses_read_iff _ _ hk, not_not]; exact hal
  have hslot : (s.beforeServing rest).readSlot (slotAt off) = s.readSlot (slotAt off) := by
    cases slotAt off <;> rfl
  refine ⟨_, h.step_eq, ?_⟩
  rw [State.serveAt, hr, hk, hslot]
  exact ⟨rfl, rfl, rfl, rfl, .beforeServing_withReply s rest _⟩

/-- A write that is not refused writes its slot (R43). -/
theorem Presented.served_write {v : Word} (hk : a.kind = .write v)
    (hr : s.refuses a off = false) :
    Served s rest (.write .OKAY) fun t =>
      t = { (s.beforeServing rest).writeSlot (slotAt off) v with reply := some (.write .OKAY) } := by
  have hr' : (s.beforeServing rest).refuses a off = false := hr
  obtain ⟨hin, hbase, hrst⟩ := (s.beforeServing rest).writeSlot_pins (slotAt off) v
  refine ⟨_, h.step_eq, ?_⟩
  rw [State.serveAt, hr', hk]
  exact ⟨rfl, hin, hbase, hrst, rfl⟩

end

/-! ### What a read answers -/

theorem slotAt_constP {j : Nat} (h : j < 8) : slotAt (0x080 + 4 * j) = .constP j := by
  simp only [slotAt]
  iterate 10 rw [if_neg (by omega)]
  rw [if_pos (by omega)]
  congr 1; omega

theorem slotAt_constN {j : Nat} (h : j < 8) : slotAt (0x0A0 + 4 * j) = .constN j := by
  simp only [slotAt]
  iterate 11 rw [if_neg (by omega)]
  rw [if_pos (by omega)]
  congr 1; omega

theorem slotAt_constGx {j : Nat} (h : j < 8) : slotAt (0x0C0 + 4 * j) = .constGx j := by
  simp only [slotAt]
  iterate 12 rw [if_neg (by omega)]
  rw [if_pos (by omega)]
  congr 1; omega

theorem slotAt_constGy {j : Nat} (h : j < 8) : slotAt (0x0E0 + 4 * j) = .constGy j := by
  simp only [slotAt]
  iterate 13 rw [if_neg (by omega)]
  rw [if_pos (by omega)]
  congr 1; omega

/-- The two ranges of reserved offsets (R15). -/
theorem slotAt_reserved {off : Nat} (h : (0x01C ≤ off ∧ off < 0x040) ∨ 0x300 ≤ off) :
    slotAt off = .reserved := by
  have hs := slotOf_slotAt off
  generalize slotAt off = t at hs ⊢
  cases hs with
  | low | high => rfl
  | _ => omega

theorem isWordOf_wordOf (v : Word256) (j : Nat) : IsWordOf (wordOf v j) v.toNat j := by
  rw [IsWordOf, wordOf, BitVec.extractLsb'_toNat, Nat.shiftRight_eq_div_pow]

theorem State.statusWord_toNat (s : State) : s.statusWord.toNat =
    s.busy.toNat + 2 * s.done.toNat + 4 * s.err.toNat + 8 * s.qr.toNat := by
  unfold State.statusWord
  cases s.busy <;> cases s.done <;> cases s.err <;> cases s.qr <;> rfl

theorem State.ieWord_toNat (s : State) :
    s.ieWord.toNat = s.doneIE.toNat + 2 * s.errIE.toNat := by
  unfold State.ieWord
  cases s.doneIE <;> cases s.errIE <;> rfl

/-- The word of an offset's slot is the one R42 lists. -/
theorem State.readsAs_readSlot (s : State) (off : Nat) :
    ReadsAs s off (s.readSlot (slotAt off)) := by
  refine ⟨?id, ?cmd, ?status, ?errcode, ?ie, ?pinf, ?ctrl, ?low, ?curveA, ?curveB, ?constP, ?constN,
    ?constGx, ?constGy, ?operand, ?high⟩
  case id | cmd | ctrl => rintro rfl; rfl
  case status => rintro rfl; exact s.statusWord_toNat
  case errcode => rintro rfl; exact BitVec.toNat_setWidth_of_le (by decide)
  case ie => rintro rfl; exact s.ieWord_toNat
  case pinf => rintro rfl; exact BitVec.toNat_setWidth_of_le (by decide)
  case low => intro h h'; rw [slotAt_reserved (.inl ⟨h, h'⟩)]; rfl
  case curveA => rintro j hj rfl; rw [slotAt_curveA hj]; exact isWordOf_wordOf _ j
  case curveB => rintro j hj rfl; rw [slotAt_curveB hj]; exact isWordOf_wordOf _ j
  case constP => rintro j hj rfl; rw [slotAt_constP hj]; exact isWordOf_wordOf _ j
  case constN => rintro j hj rfl; rw [slotAt_constN hj]; exact isWordOf_wordOf _ j
  case constGx => rintro j hj rfl; rw [slotAt_constGx hj]; exact isWordOf_wordOf _ j
  case constGy => rintro j hj rfl; rw [slotAt_constGy hj]; exact isWordOf_wordOf _ j
  case operand => rintro i j hj rfl; rw [slotAt_operand i hj]; exact isWordOf_wordOf _ j
  case high => intro h; rw [slotAt_reserved (.inr h)]; rfl

/-- Settles O39. -/
theorem readsAnswerTheRegisters : Obligations.ReadsAnswerTheRegisters := by
  intro s a off rest h hk
  refine ⟨fun hal => ⟨_, s.readsAs_readSlot off, h.served_read hk hal⟩, fun hal => ?_⟩
  have hs := h.served_refused ((s.refuses_read_iff off hk).2 hal)
  rwa [hk] at hs

/-! ### What a write does -/

theorem wordReplaced_setWordOf (w : Word256) {j : Nat} (v : Word) (h : j < 8) :
    WordReplaced w (setWordOf w j v) j v :=
  ⟨wordOf_setWordOf_same w v h, fun _ hk hne => wordOf_setWordOf_ne w v hk hne⟩

/-- A write to a read-only or reserved offset has no effect (R39). -/
theorem State.writeSlot_of_readOnly (s : State) {off : Nat} (v : Word)
    (h : off = 0x000 ∨ off = 0x00C ∨ (0x01C ≤ off ∧ off < 0x040) ∨ (0x080 ≤ off ∧ off < 0x100) ∨
      0x300 ≤ off) : s.writeSlot (slotAt off) v = s := by
  have hs := slotOf_slotAt off
  generalize slotAt off = t at hs ⊢
  cases hs with
  | id | errcode | low | constP | constN | constGx | constGy | high => rfl
  | _ => omega

/-- The write of an offset's slot does what R43 lists; `rest` and `reply` are no registers. -/
theorem State.writesAs_writeSlot (s : State) (rest : List Input) (reply : Option Reply) (off : Nat)
    (v : Word) :
    WritesAs s off v { (s.beforeServing rest).writeSlot (slotAt off) v with reply := reply } := by
  refine ⟨?cmd, ?status, ?ie, ?pinf, ?ctrl, ?curveA, ?curveB, ?operand, ?readOnly⟩
  case cmd => rintro rfl; exact ⟨rfl, rfl, rfl, by constructor <;> rfl⟩
  case status => rintro rfl; exact ⟨rfl, rfl, rfl, by constructor <;> rfl⟩
  case ie => rintro rfl; exact ⟨rfl, rfl, by constructor <;> rfl⟩
  case pinf =>
    rintro rfl
    refine ⟨fun k => ?_, by constructor <;> rfl⟩
    exact (BitVec.getLsbD_setWidth ..).trans (by simp [show k.toNat < 8 from k.isLt])
  case ctrl =>
    rintro rfl
    split
    next hv =>
      rw [show slotAt 0x018 = .ctrl from rfl, State.writeSlot, if_pos hv]
      exact .of_eq rfl
    next hv =>
      rw [show slotAt 0x018 = .ctrl from rfl, State.writeSlot, if_neg hv]
      exact .beforeServing_withReply ..
  case curveA =>
    rintro j hj rfl
    rw [slotAt_curveA hj]
    exact ⟨wordReplaced_setWordOf _ v hj, by constructor <;> rfl⟩
  case curveB =>
    rintro j hj rfl
    rw [slotAt_curveB hj]
    exact ⟨wordReplaced_setWordOf _ v hj, by constructor <;> rfl⟩
  case operand =>
    rintro i j hj rfl
    rw [slotAt_operand i hj]
    refine ⟨?_, fun i' hne => State.getR_setR_ne _ _ hne, by constructor <;> rfl⟩
    have hg := (s.beforeServing rest).getR_setR_same i (setWordOf (s.getR i) j v)
    exact hg.symm ▸ wordReplaced_setWordOf (s.getR i) v hj
  case readOnly =>
    intro h
    rw [State.writeSlot_of_readOnly _ v h]
    exact .beforeServing_withReply ..

/-- Settles O40. -/
theorem writesChangeTheRegistersAsMapped : Obligations.WritesChangeTheRegistersAsMapped := by
  intro s a off v rest h hk
  have hiff := s.refuses_write_iff off hk
  refine ⟨fun hr => ?_, fun hal hfree => ?_⟩
  · have hs := h.served_refused (hiff.2 hr)
    rwa [hk] at hs
  · have hr : s.refuses a off = false := by
      rw [← Bool.not_eq_true, hiff]
      exact not_or.2 ⟨not_not.2 hal, hfree⟩
    exact (h.served_write hk hr).mono fun t ht => ht ▸ s.writesAs_writeSlot ..

/-- Settles O41: reads are served busy or idle, and an offset that is not locked is written. -/
theorem busyLocksOperandsAndCommand : Obligations.BusyLocksOperandsAndCommand := by
  intro s a off rest h hal hb
  refine ⟨fun v hk hlock => ?_, fun v hk hoff => ?_, fun hk => ?_⟩
  · exact (writesChangeTheRegistersAsMapped s a off v rest h hk).1 (.inr ⟨hb, hlock⟩)
  · refine (writesChangeTheRegistersAsMapped s a off v rest h hk).2 hal fun ⟨_, hlock⟩ => ?_
    unfold LockedOffset at hlock
    omega
  · exact (readsAnswerTheRegisters s a off rest h hk).1 hal

/-- Settles O42. -/
theorem misfitAccessesAreRefused : Obligations.MisfitAccessesAreRefused := by
  intro s a off rest h hmis
  have hal : ¬ a.Aligned32 off := by
    rintro ⟨hbytes, hlanes, hoff⟩
    exact hmis.elim (· hbytes) (·.elim (· hlanes) (· hoff))
  refine ⟨fun hk => ?_, fun v hk => ?_⟩
  · exact ((readsAnswerTheRegisters s a off rest h hk).2 hal).mono fun t ht => ⟨ht, ht.irq⟩
  · exact ((writesChangeTheRegistersAsMapped s a off v rest h hk).1 (.inl hal)).mono
      fun t ht => ⟨ht, ht.irq⟩

/-! ### Bits that no write changes -/

theorem State.statusWord_busy (s : State) : s.statusWord.getLsbD 0 = s.busy := by
  simp only [State.statusWord, BitVec.getLsbD_setWidth, BitVec.getLsbD_append]
  simp

theorem State.statusWord_qr (s : State) : s.statusWord.getLsbD 3 = s.qr := by
  simp only [State.statusWord, BitVec.getLsbD_setWidth, BitVec.getLsbD_append]
  simp

/-- Bits 31:4 of STATUS are zeros (R25). -/
theorem State.statusWord_getLsbD_of_ge (s : State) {n : Nat} (hn : 4 ≤ n) :
    s.statusWord.getLsbD n = false := by
  simp [State.statusWord, hn]

/-- Bits 31:2 of IE are zeros (R27). -/
theorem State.ieWord_getLsbD_of_ge (s : State) {n : Nat} (hn : 2 ≤ n) :
    s.ieWord.getLsbD n = false := by
  simp [State.ieWord, hn]

/-- Bits 31:8 of PINF are zeros (R18). -/
theorem State.pinfWord_getLsbD_of_ge (s : State) {n : Nat} (hn : 8 ≤ n) :
    s.pinfWord.getLsbD n = false := by
  simp [State.pinfWord, hn]

/-- Settles O43. -/
theorem readOnlyWritesDoNothing : Obligations.ReadOnlyWritesDoNothing := by
  intro s a off v rest h hk hal
  have hw := (writesChangeTheRegistersAsMapped s a off v rest h hk).2 hal
  unfold LockedOffset at hw
  refine ⟨fun hro => ?_, fun hoff => ?_, fun hoff => ?_, fun hoff hidle => ?_, fun hoff hv => ?_⟩
  · exact (hw (by omega)).mono fun t ⟨_, _, _, _, _, _, _, _, hreadOnly⟩ => hreadOnly (by omega)
  · refine (hw (by omega)).mono fun t ⟨_, hstatus, _⟩ n hn => ?_
    obtain ⟨-, -, -, hsame⟩ := hstatus hoff
    obtain rfl | rfl | hn := hn
    · simpa only [State.statusWord_busy] using hsame.busy
    · simpa only [State.statusWord_qr] using hsame.qr
    · simp only [State.statusWord_getLsbD_of_ge, hn]
  · exact (hw (by omega)).mono fun t _ n hn => by simp only [State.ieWord_getLsbD_of_ge, hn]
  · exact (hw (by simp [hidle])).mono fun t _ n hn => by
      simp only [State.pinfWord_getLsbD_of_ge, hn]
  · refine (hw (by omega)).mono fun t ⟨_, _, _, _, hctrl, _⟩ => ?_
    have hc := hctrl hoff
    rwa [hv] at hc

/-! ### An access outside the window -/

/-- Settles O47: the access is taken off the bus and not answered. -/
theorem accessOutsideTheWindowIsUnseen : Obligations.AccessOutsideTheWindowIsUnseen := by
  intro s a rest hr hturn hin hout
  have hoff : (s.beforeServing rest).offsetOf? a.addr = none := State.offsetOf?_eq_none hout
  have hstep : step s = .next { s.beforeServing rest with reply := none } := by
    rw [step, hturn, State.hostTurn_released hr hin, State.receive, State.serveAccess, hoff]
  exact ⟨Nat.mul_mod_left _ _, _, hstep, .beforeServing_withReply s rest none, rfl, rfl, rfl⟩

end Sys2Proof.Machine
end

section
/-! PROOFS. The 256-bit registers of the window word by word and byte by byte: what is read after a
write, the eight writes of W256, and the byte orders of the host's strings (20_memory.md R42 to R45,
R114). -/

namespace Sys2Proof.Machine

/-! ### Read after write -/

section
variable (s : State) {off : Nat} (v : Word) (hal : off % 4 = 0)
include hal

/-- A write to a word of CURVE_A is seen at no other word of the window. -/
theorem State.readSlot_setCurveA_ne {j : Nat} (hne : off ≠ 0x040 + 4 * j) :
    ({ s with curveA := setWordOf s.curveA j v }).readSlot (slotAt off) =
      s.readSlot (slotAt off) := by
  have h := slotOf_slotAt off
  generalize slotAt off = t at h ⊢
  cases h with
  | curveA h => exact wordOf_setWordOf_ne _ _ (by omega) (by omega)
  | _ => rfl

/-- A write to a word of CURVE_B is seen at no other word of the window. -/
theorem State.readSlot_setCurveB_ne {j : Nat} (hne : off ≠ 0x060 + 4 * j) :
    ({ s with curveB := setWordOf s.curveB j v }).readSlot (slotAt off) =
      s.readSlot (slotAt off) := by
  have h := slotOf_slotAt off
  generalize slotAt off = t at h ⊢
  cases h with
  | curveB h => exact wordOf_setWordOf_ne _ _ (by omega) (by omega)
  | _ => rfl

/-- A write to a word of an operand register is seen at no other word of the window, neither in
another register nor in the same one. -/
theorem State.readSlot_setR_ne (i : Reg) {j : Nat} (hne : off ≠ 0x100 + 0x20 * i.toNat + 4 * j) :
    (s.setR i (setWordOf (s.getR i) j v)).readSlot (slotAt off) = s.readSlot (slotAt off) := by
  have h := slotOf_slotAt off
  generalize slotAt off = t at h ⊢
  cases h with
  | operand h =>
    simp only [State.readSlot]
    by_cases hi : BitVec.ofNat 4 ((off - 0x100) / 32) = i
    · have hn : (off - 0x100) / 32 = i.toNat := by
        rw [← hi, BitVec.toNat_ofNat, Nat.mod_eq_of_lt (by omega)]
      rw [hi, State.getR_setR_same]
      exact wordOf_setWordOf_ne _ _ (by omega) (by omega)
    · rw [State.getR_setR_ne _ _ hi]
  | _ => rfl

end

/-- The offset of a word of CURVE_A, of CURVE_B or of an operand register. -/
theorem exists_word_of_offset {off : Nat}
    (h : (0x040 ≤ off ∧ off < 0x080) ∨ (0x100 ≤ off ∧ off < 0x300)) (hal : off % 4 = 0) :
    (∃ j < 8, off = 0x040 + 4 * j) ∨ (∃ j < 8, off = 0x060 + 4 * j) ∨
      ∃ i : Reg, ∃ j < 8, off = 0x100 + 0x20 * i.toNat + 4 * j := by
  by_cases hA : off < 0x060
  · exact .inl ⟨(off - 0x040) / 4, by omega, by omega⟩
  by_cases hB : off < 0x080
  · exact .inr (.inl ⟨(off - 0x060) / 4, by omega, by omega⟩)
  refine .inr (.inr ⟨BitVec.ofNat 4 ((off - 0x100) / 32), (off - 0x100) % 32 / 4, by omega, ?_⟩)
  rw [BitVec.toNat_ofNat, Nat.mod_eq_of_lt (by omega)]
  omega

/-- Settles O44. -/
theorem windowReadAfterWrite : Obligations.WindowReadAfterWrite := by
  intro s off v hoff hal
  obtain ⟨j, hj, rfl⟩ | ⟨j, hj, rfl⟩ | ⟨i, j, hj, rfl⟩ := exists_word_of_offset hoff hal
  · rw [slotAt_curveA hj]
    exact ⟨wordOf_setWordOf_same _ v hj, fun off' _ hal' hne => s.readSlot_setCurveA_ne v hal' hne⟩
  · rw [slotAt_curveB hj]
    exact ⟨wordOf_setWordOf_same _ v hj, fun off' _ hal' hne => s.readSlot_setCurveB_ne v hal' hne⟩
  · rw [slotAt_operand i hj]
    refine ⟨?_, fun off' _ hal' hne => s.readSlot_setR_ne v hal' i hne⟩
    rw [State.writeSlot, State.readSlot, State.getR_setR_same, wordOf_setWordOf_same _ v hj]

/-! ### The eight writes of W256 -/

theorem run_succ_of_step {s t : State} (h : step s = .next t) (n : Nat) :
    core.run (n + 1) s = core.run n t := by
  simp only [Host.Core.run, core, h]

/-- What W256 does to the registers from its word number `first` on (R44): those words of R[i] are
`v`'s afterwards, and no other word of a register has changed. -/
structure Installs (i : Reg) (v : Word256) (first : Nat) (s t : State) : Prop where
  words : ∀ j < 8, wordOf (t.getR i) j = wordOf (if j < first then s.getR i else v) j
  others : ∀ i', i' ≠ i → t.getR i' = s.getR i'
  same : SameRegisters s { t with r := s.r }

/-- Nothing is left to write after the eighth word. -/
theorem Installs.refl (i : Reg) (v : Word256) (s : State) : Installs i v 8 s s where
  words j hj := by rw [if_pos hj]
  others _ _ := rfl
  same := by constructor <;> rfl

/-- One word write, and then the rest of W256. -/
theorem Installs.cons {i : Reg} {v : Word256} {first : Nat} {s u t : State} (hf : first < 8)
    (hw : WordReplaced (s.getR i) (u.getR i) first (wordOf v first))
    (ho : ∀ i', i' ≠ i → u.getR i' = s.getR i') (hs : SameRegisters s { u with r := s.r })
    (h : Installs i v (first + 1) u t) : Installs i v first s t where
  words j hj := by
    obtain ⟨hnew, hold⟩ := hw
    rw [h.words j hj]
    obtain hlt | rfl | hgt := Nat.lt_trichotomy j first
    · rw [if_pos (by omega), if_pos hlt, hold j hj (by omega)]
    · rw [if_pos (by omega), if_neg (by omega), hnew]
    · rw [if_neg (by omega), if_neg (by omega)]
  others i' hi := (h.others i' hi).trans (ho i' hi)
  same :=
    { cmd := h.same.cmd.trans hs.cmd, busy := h.same.busy.trans hs.busy
      done := h.same.done.trans hs.done, err := h.same.err.trans hs.err
      qr := h.same.qr.trans hs.qr, code := h.same.code.trans hs.code
      doneIE := h.same.doneIE.trans hs.doneIE, errIE := h.same.errIE.trans hs.errIE
      pinf := h.same.pinf.trans hs.pinf, curveA := h.same.curveA.trans hs.curveA
      curveB := h.same.curveB.trans hs.curveB, r := rfl }

/-- An idle machine serves a write of word j of R[i] (R43). -/
theorem step_write_operand {s : State} {i : Reg} {j : Nat} {v : Word} {rest : List Input}
    (hj : j < 8) (hr : s.rstN = true) (hb : s.busy = false)
    (hin : s.inputs = .access (writeWordAccess (s.base + operandOffset i + 4 * j) v) :: rest) :
    Served s rest (.write .OKAY) fun t =>
      WordReplaced (s.getR i) (t.getR i) j v ∧ (∀ i', i' ≠ i → t.getR i' = s.getR i') ∧
        SameRegisters s { t with r := s.r } := by
  have hi := i.isLt
  have hp : Presented s _ (0x100 + 0x20 * i.toNat + 4 * j) rest :=
    { released := hr
      turn := by simp [State.turn, hb]
      next := hin
      addr := by simp only [writeWordAccess, operandOffset]; omega
      inWindow := by simp only [Config.windowBytes]; omega }
  have hw := (writesChangeTheRegistersAsMapped s _ _ v rest hp rfl).2 ⟨rfl, rfl, by omega⟩
    (by simp [hb])
  exact hw.mono fun t ⟨_, _, _, _, _, _, _, hoperand, _⟩ => hoperand i j hj rfl

/-- The last `count` of the eight writes of W256, on an idle machine. -/
theorem run_write256From {s : State} {i : Reg} {v : Word256} {rest : List Input}
    (count first : Nat) (hcount : first + count = 8) (hr : s.rstN = true) (hb : s.busy = false)
    (hin : s.inputs = write256From (s.base + operandOffset i) v count first ++ rest) :
    ∃ t, core.run count s = .next t ∧ Installs i v first s t ∧ t.inputs = rest ∧
      t.reply = if count = 0 then s.reply else some (.write .OKAY) := by
  induction count generalizing s first with
  | zero =>
    obtain rfl : first = 8 := hcount
    exact ⟨s, rfl, .refl i v s, hin, rfl⟩
  | succ n ih =>
    have hf : first < 8 := by omega
    obtain ⟨u, hstep, hreply, huin, hbase, hrst, hword, hothers, hsame⟩ :=
      step_write_operand (rest := write256From (s.base + operandOffset i) v n (first + 1) ++ rest)
        hf hr hb hin
    have hub : u.base = s.base := congrArg (· * Config.windowBytes) hbase
    obtain ⟨t, hrun, hinst, htin, htr⟩ := ih (s := u) (first + 1) (by omega) (hrst.trans hr)
      (hsame.busy.trans hb) (by rw [hub]; exact huin)
    refine ⟨t, (run_succ_of_step hstep n).trans hrun, hinst.cons hf hword hothers hsame, htin, ?_⟩
    rw [htr, hreply, ite_self, if_neg n.succ_ne_zero]

/-- Settles O45, by induction on the writes left. -/
theorem write256InstallsAnOperand : Obligations.Write256InstallsAnOperand := by
  intro s i v rest hr hb hin
  obtain ⟨t, hrun, hinst, htin, htr⟩ := run_write256From 8 0 rfl hr hb hin
  exact ⟨t, hrun, eq_of_wordOf hinst.words, hinst.others, htin, htr, hinst.same⟩

/-! ### Byte orders -/

theorem littleEndian_eq_foldr (bytes : List (BitVec 8)) :
    littleEndian bytes = bytes.foldr (fun b acc => acc * 256 + b.toNat) 0 := by
  induction bytes with
  | nil => rfl
  | cons b rest ih => rw [List.foldr_cons, ← ih, littleEndian]; omega

/-- A string read from its most significant byte is the reversed string read from its least. -/
theorem bigEndian_eq_littleEndian_reverse (bytes : List (BitVec 8)) :
    bigEndian bytes = littleEndian bytes.reverse := by
  rw [bigEndian, littleEndian_eq_foldr, List.foldr_reverse]

theorem littleEndian_lt (bytes : List (BitVec 8)) : littleEndian bytes < 256 ^ bytes.length := by
  induction bytes with
  | nil => decide
  | cons b rest ih =>
    have hb : b.toNat < 256 := b.isLt
    rw [littleEndian, List.length_cons, Nat.pow_succ]
    omega

/-- Byte k of the integer is element k of the string. -/
theorem littleEndian_div_mod {bytes : List (BitVec 8)} {k : Nat} (h : k < bytes.length) :
    littleEndian bytes / 256 ^ k % 256 = bytes[k].toNat := by
  induction bytes generalizing k with
  | nil => cases h
  | cons b rest ih =>
    have hb : b.toNat < 256 := b.isLt
    rw [littleEndian]
    cases k with
    | zero => simp; omega
    | succ k =>
      have hdiv : (b.toNat + 256 * littleEndian rest) / 256 = littleEndian rest := by omega
      rw [Nat.pow_succ', ← Nat.div_div_eq_div_mul, hdiv, List.getElem_cons_succ]
      exact ih (Nat.lt_of_succ_lt_succ h)

/-- The first n bytes of an integer, as a little-endian string. -/
theorem littleEndian_range (x n : Nat) :
    littleEndian ((List.range n).map fun b => BitVec.ofNat 8 (x / 256 ^ b)) = x % 256 ^ n := by
  induction n generalizing x with
  | zero => simp [littleEndian, Nat.mod_one]
  | succ n ih =>
    have htail : (fun b => BitVec.ofNat 8 (x / 256 ^ b)) ∘ Nat.succ =
        fun b => BitVec.ofNat 8 (x / 256 / 256 ^ b) := by
      funext b
      rw [Function.comp_apply, Nat.succ_eq_add_one, Nat.pow_succ', Nat.div_div_eq_div_mul]
    rw [List.range_succ_eq_map, List.map_cons, List.map_map, littleEndian, htail, ih,
      Nat.pow_succ', Nat.mod_mul]
    simp

/-- Byte lane b of word j is byte 4j + b of the register. -/
theorem laneOf_wordOf (v : Word256) (j : Nat) {b : Nat} (hb : b < 4) :
    laneOf (wordOf v j) b = BitVec.ofNat 8 (v.toNat / 256 ^ (4 * j + b)) := by
  apply BitVec.eq_of_getLsbD_eq
  intro n hn
  have hpow : 256 ^ (4 * j + b) = 2 ^ (8 * (4 * j + b)) := by rw [Nat.pow_mul]
  rw [laneOf, BitVec.getLsbD_extractLsb', wordOf_getLsbD _ _ _ (by omega), BitVec.getLsbD_ofNat,
    hpow, Nat.testBit_div_two_pow, BitVec.testBit_toNat]
  simp only [hn, decide_true, Bool.true_and]
  congr 1; omega

theorem byteOf_eq (v : Word256) (b : Nat) : byteOf v b = BitVec.ofNat 8 (v.toNat / 256 ^ b) := by
  rw [byteOf, laneOf_wordOf v _ (Nat.mod_lt b (by decide)), Nat.div_add_mod]

/-- A word is its four byte lanes. -/
theorem eq_append_lanes (w : Word) : w = laneOf w 3 ++ laneOf w 2 ++ laneOf w 1 ++ laneOf w 0 := by
  simp only [laneOf]
  rw [BitVec.extractLsb'_append_extractLsb'_eq_extractLsb' (by rfl),
    BitVec.extractLsb'_append_extractLsb'_eq_extractLsb' (by rfl),
    BitVec.extractLsb'_append_extractLsb'_eq_extractLsb' (by rfl)]
  exact BitVec.extractLsb'_eq_self.symm

/-- The byte lanes of the register that holds a 32-byte big-endian string are the elements of the
string, counted from its end. -/
theorem laneOf_wordOf_bigEndian {bytes : List (BitVec 8)} (hlen : bytes.length = 32) {j b m : Nat}
    (hb : b < 4) (h : 4 * j + b + m = 31) :
    laneOf (wordOf (BitVec.ofNat 256 (bigEndian bytes)) j) b = bytes[m] := by
  have hlen' : bytes.reverse.length = 32 := by rw [List.length_reverse, hlen]
  have hlt : littleEndian bytes.reverse < 2 ^ 256 := by
    have := littleEndian_lt bytes.reverse
    rwa [hlen'] at this
  have hm : m = 31 - (4 * j + b) := by omega
  apply BitVec.eq_of_toNat_eq
  rw [laneOf_wordOf _ _ hb, bigEndian_eq_littleEndian_reverse, BitVec.toNat_ofNat,
    BitVec.toNat_ofNat, Nat.mod_eq_of_lt hlt]
  refine (littleEndian_div_mod (by omega)).trans ?_
  simp only [List.getElem_reverse, hlen, hm]

/-- Settles O46. -/
theorem byteOrdersOfARegister : Obligations.ByteOrdersOfARegister := by
  refine ⟨fun bytes hlen j => ?_, fun v => ?_⟩
  · rw [eq_append_lanes (wordOf _ _),
      laneOf_wordOf_bigEndian hlen (b := 3) (m := 28 - 4 * j.val) (by decide) (by omega),
      laneOf_wordOf_bigEndian hlen (b := 2) (m := 29 - 4 * j.val) (by decide) (by omega),
      laneOf_wordOf_bigEndian hlen (b := 1) (m := 30 - 4 * j.val) (by decide) (by omega),
      laneOf_wordOf_bigEndian hlen (b := 0) (m := 31 - 4 * j.val) (by decide) (by omega)]
  · have hbytes : byteOf v = fun b => BitVec.ofNat 8 (v.toNat / 256 ^ b) := funext (byteOf_eq v)
    rw [hbytes, littleEndian_range]
    exact Nat.mod_eq_of_lt v.isLt

end Sys2Proof.Machine
end

section
/-! PROOFS. The command word: the decoder and the encoder are inverse to each other, the decoder
accepts the words that are `Legal`, and the rows of the opcode table are its commands
(30_encoding.md R52 to R57). -/

namespace Sys2Proof

/-! ### The fields, opcode by opcode -/

/-- To show something of all fields, show it where a reserved bit is set, where OPC is in no row of
R54, and for every opcode with the reserved bits zero. -/
theorem CmdFields.byOpcode {motive : CmdFields → Prop}
    (reserved : ∀ f : CmdFields, f.rsvLow ≠ 0 ∨ f.rsvHigh ≠ 0 → motive f)
    (noOpcode : ∀ f : CmdFields, ¬ (f.rsvLow ≠ 0 ∨ f.rsvHigh ≠ 0) → Opcode.ofBits f.opc = none →
      motive f)
    (opcode : ∀ (op : Opcode) (m f0 f1 : Bool) (rd rs1 rs2 : Reg),
      motive { opc := op.bits, m, f0, f1, rsvLow := 0, rd, rs1, rs2, rsvHigh := 0 })
    (f : CmdFields) : motive f := by
  by_cases hrsv : f.rsvLow ≠ 0 ∨ f.rsvHigh ≠ 0
  · exact reserved f hrsv
  cases hop : Opcode.ofBits f.opc with
  | none => exact noOpcode f hrsv hop
  | some op =>
    obtain ⟨opc, m, f0, f1, rsvLow, rd, rs1, rs2, rsvHigh⟩ := f
    obtain ⟨rfl, rfl⟩ : rsvLow = 0 ∧ rsvHigh = 0 := by simpa using hrsv
    obtain rfl := Opcode.bits_of_ofBits hop
    exact opcode op m f0 f1 rd rs1 rs2

section
variable {f : CmdFields}

theorem decodeFields_of_reserved (h : f.rsvLow ≠ 0 ∨ f.rsvHigh ≠ 0) :
    decodeFields f = .error .reservedBits := if_pos h

theorem CmdFields.legal_of_reserved (h : f.rsvLow ≠ 0 ∨ f.rsvHigh ≠ 0) : f.legal = false := if_pos h

theorem decodeFields_of_noOpcode (hrsv : ¬ (f.rsvLow ≠ 0 ∨ f.rsvHigh ≠ 0))
    (h : Opcode.ofBits f.opc = none) : decodeFields f = .error .reservedOpcode := by
  simp only [decodeFields, if_neg hrsv, h]

theorem CmdFields.legal_of_noOpcode (hrsv : ¬ (f.rsvLow ≠ 0 ∨ f.rsvHigh ≠ 0))
    (h : Opcode.ofBits f.opc = none) : f.legal = false := by
  simp only [CmdFields.legal, if_neg hrsv, h]

end

/-! ### Decoding and encoding -/

@[simp] theorem Modulus.bit_P : Modulus.P.bit = false := rfl

/-- Each opcode's requirements leave its command's fields as the encoder writes them. -/
theorem encodeFields_of_decodeFields {f : CmdFields} {i : Instr} (h : decodeFields f = .ok i) :
    i.wellFormed = true ∧ encodeFields i = f := by
  induction f using CmdFields.byOpcode with
  | reserved f hrsv => cases (decodeFields_of_reserved hrsv).symm.trans h
  | noOpcode f hrsv hop => cases (decodeFields_of_noOpcode hrsv hop).symm.trans h
  | opcode op m f0 f1 rd rs1 rs2 =>
    simp only [decodeFields, Opcode.ofBits_bits, ne_eq, not_true_eq_false, or_self, if_false] at h
    cases op
    case PMUL =>
      cases f1 <;> obtain ⟨hreq, rfl⟩ := requiring_eq_ok.1 h <;>
        simp_all [Instr.wellFormed, encodeFields, encodeFields.field]
    all_goals
      obtain ⟨hreq, rfl⟩ := requiring_eq_ok.1 h
      simp_all [Instr.wellFormed, encodeFields, encodeFields.field]

/-- The fields of a well-formed command meet every requirement of its opcode. -/
theorem decodeFields_encodeFields {i : Instr} (h : i.wellFormed = true) :
    decodeFields (encodeFields i) = .ok i := by
  cases i
  all_goals
    simp_all [Instr.wellFormed, encodeFields, encodeFields.field, decodeFields, requiring]

/-- The decoder reads a command exactly from the word the encoder writes for it. -/
theorem decode_eq_ok_iff {w : Word} {i : Instr} :
    decode w = .ok i ↔ i.wellFormed = true ∧ encode i = w := by
  constructor
  · intro h
    obtain ⟨hwf, hf⟩ := encodeFields_of_decodeFields h
    exact ⟨hwf, by rw [encode, hf, CmdFields.toWord_ofWord]⟩
  · rintro ⟨hwf, rfl⟩
    rw [decode, encode, CmdFields.ofWord_toWord, decodeFields_encodeFields hwf]

/-- Settles O2. -/
theorem decodeOfEncodedCommand : Obligations.DecodeOfEncodedCommand :=
  fun _ h => decode_eq_ok_iff.2 ⟨h, rfl⟩

/-- Settles O3. -/
theorem encodeOfDecodedWord : Obligations.EncodeOfDecodedWord :=
  fun _ _ h => decode_eq_ok_iff.1 h

/-! ### `Legal` -/

/-- The decoder's requirements and the checks of R56 are the same, opcode by opcode. -/
theorem decodeFields_isOk_iff_legal (f : CmdFields) :
    (∃ i, decodeFields f = .ok i) ↔ f.legal = true := by
  induction f using CmdFields.byOpcode with
  | reserved f hrsv => simp [decodeFields_of_reserved hrsv, CmdFields.legal_of_reserved hrsv]
  | noOpcode f hrsv hop =>
    simp [decodeFields_of_noOpcode hrsv hop, CmdFields.legal_of_noOpcode hrsv hop]
  | opcode op m f0 f1 rd rs1 rs2 =>
    simp only [decodeFields, CmdFields.legal, Opcode.ofBits_bits, ne_eq, not_true_eq_false, or_self,
      if_false]
    cases op
    case PMUL => cases f1 <;> simp [requiring_eq_ok, Opcode.bits, isPointField]
    all_goals simp [requiring_eq_ok, Opcode.bits, isPointField]

theorem decode_isOk_iff_legal (w : Word) : (∃ i, decode w = .ok i) ↔ legal w = true :=
  decodeFields_isOk_iff_legal _

theorem Opcode.ofBits_eq_none_iff (b : BitVec 6) : Opcode.ofBits b = none ↔ b.toNat ∉
    [0x01, 0x02, 0x03, 0x04, 0x05, 0x08, 0x09, 0x0A, 0x0B, 0x10, 0x11, 0x12, 0x13, 0x18] := by
  revert b; decide

/-- The checks of R56 as conditions on the fields and the number of the opcode. -/
theorem CmdFields.legal_iff {f : CmdFields} {op : Nat} (hop : f.opc.toNat = op) : f.legal = true ↔
    f.rsvLow = 0 ∧ f.rsvHigh = 0 ∧
    op ∈ [0x01, 0x02, 0x03, 0x04, 0x05, 0x08, 0x09, 0x0A, 0x0B, 0x10, 0x11, 0x12, 0x13, 0x18] ∧
    (f.f0 = true → op = 0x08 ∨ op = 0x18) ∧
    (f.f1 = true → op = 0x18) ∧
    (op = 0x05 ∨ op = 0x09 ∨ op = 0x0B → f.rs2 = 0) ∧
    (op = 0x0B → f.m = false) ∧
    (0x10 ≤ op →
      f.m = false ∧
      (if op = 0x13 then f.rd = 0 else f.rd.getLsbD 3 = false) ∧
      (if op = 0x18 ∧ f.f1 = true then f.rs1 = 0 else f.rs1.getLsbD 3 = false) ∧
      (op = 0x10 → f.rs2.getLsbD 3 = false) ∧
      (op = 0x11 ∨ op = 0x12 ∨ op = 0x13 → f.rs2 = 0)) := by
  subst hop
  induction f using CmdFields.byOpcode with
  | reserved f hrsv =>
    rw [legal_of_reserved hrsv]
    refine iff_of_false Bool.false_ne_true ?_
    rintro ⟨hlow, hhigh, -⟩
    exact hrsv.elim (· hlow) (· hhigh)
  | noOpcode f hrsv hop =>
    rw [legal_of_noOpcode hrsv hop]
    refine iff_of_false Bool.false_ne_true ?_
    rintro ⟨-, -, hmem, -⟩
    exact (Opcode.ofBits_eq_none_iff f.opc).1 hop hmem
  | opcode op m f0 f1 rd rs1 rs2 =>
    simp only [legal, Opcode.ofBits_bits]
    cases op
    all_goals simp [Opcode.bits, BitVec.msb_eq_getLsbD_last]

theorem CmdFields.toNat_opc_ofWord (w : Word) : (CmdFields.ofWord w).opc.toNat = w.toNat % 64 := by
  simp [CmdFields.ofWord]

/-- Settles O4. -/
theorem decoderAcceptsExactlyLegalWords : Obligations.DecoderAcceptsExactlyLegalWords :=
  fun w => (decode_isOk_iff_legal w).trans (CmdFields.legal_iff (CmdFields.toNat_opc_ofWord w))

/-! ### The opcode table -/

/-- Two words' fields, anded bit by bit. -/
def CmdFields.and (f g : CmdFields) : CmdFields :=
  { opc := f.opc &&& g.opc, m := f.m && g.m, f0 := f.f0 && g.f0, f1 := f.f1 && g.f1
    rsvLow := f.rsvLow &&& g.rsvLow, rd := f.rd &&& g.rd, rs1 := f.rs1 &&& g.rs1
    rs2 := f.rs2 &&& g.rs2, rsvHigh := f.rsvHigh &&& g.rsvHigh }

theorem CmdFields.ofWord_and (v w : Word) :
    CmdFields.ofWord (v &&& w) = (CmdFields.ofWord v).and (CmdFields.ofWord w) := by
  simp [CmdFields.ofWord, CmdFields.and, BitVec.extractLsb'_and]

/-- A word fits a mask and a match value exactly if its fields do. -/
theorem and_eq_iff_fields {w mask value : Word} : w &&& mask = value ↔
    (CmdFields.ofWord w).and (CmdFields.ofWord mask) = CmdFields.ofWord value := by
  have hinj : Function.Injective CmdFields.ofWord :=
    Function.LeftInverse.injective CmdFields.toWord_ofWord
  rw [← CmdFields.ofWord_and, hinj.eq_iff]

theorem and_ones : (∀ x : BitVec 6, x &&& 63#6 = x) ∧ (∀ x : BitVec 3, x &&& 7#3 = x) ∧
    (∀ x : BitVec 8, x &&& 255#8 = x) ∧ ∀ x : BitVec 4, x &&& 15#4 = x := by decide

theorem and_bit3_eq_zero_iff (x : Reg) : x &&& 8#4 = 0#4 ↔ x[3] = false := by
  revert x; decide

theorem isPointField_iff_bit3 (x : Reg) : isPointField x = true ↔ x[3] = false := by
  revert x; decide

/-- The word of a well-formed command fits the command's row. -/
theorem encode_fits_row {i : Instr} (h : i.wellFormed = true) :
    ∃ row, opcodeRows[rowOf i]? = some row ∧ encode i &&& row.1 = row.2 := by
  simp only [and_eq_iff_fields, encode, CmdFields.ofWord_toWord]
  cases i
  all_goals
    refine ⟨_, rfl, ?_⟩
    simp_all [CmdFields.ofWord, CmdFields.and, encodeFields, encodeFields.field, Opcode.bits,
      Instr.wellFormed, isPointField_iff_bit3, and_bit3_eq_zero_iff]

/-- A word that fits a row meets the conditions of R56 for the row's opcode. -/
theorem legal_of_fits_row {row : Word × Word} {w : Word} (hmem : row ∈ opcodeRows)
    (h : w &&& row.1 = row.2) : legal w = true := by
  rw [and_eq_iff_fields] at h
  rw [legal, CmdFields.legal_iff rfl]
  generalize CmdFields.ofWord w = f at h ⊢
  obtain ⟨opc, m, f0, f1, rsvLow, rd, rs1, rs2, rsvHigh⟩ := f
  simp only [opcodeRows, List.mem_cons, List.not_mem_nil, or_false] at hmem
  rcases hmem with rfl | rfl | rfl | rfl | rfl | rfl | rfl | rfl | rfl | rfl | rfl | rfl | rfl |
    rfl | rfl
  all_goals
    simp [CmdFields.ofWord, CmdFields.and, and_ones, and_bit3_eq_zero_iff] at h
    simp [h]

/-- Any two rows disagree on a bit that both of them fix. -/
theorem opcodeRows_disjoint :
    opcodeRows.Pairwise fun p q => p.2 &&& q.1 ≠ q.2 &&& p.1 := by decide +kernel

/-- No word fits two rows. -/
theorem index_eq_of_fits_rows {n k : Nat} {p q : Word × Word} {w : Word}
    (hp : opcodeRows[n]? = some p) (hq : opcodeRows[k]? = some q)
    (hwp : w &&& p.1 = p.2) (hwq : w &&& q.1 = q.2) : n = k := by
  obtain ⟨hn, rfl⟩ := List.getElem?_eq_some_iff.1 hp
  obtain ⟨hk, rfl⟩ := List.getElem?_eq_some_iff.1 hq
  have hdisj := List.pairwise_iff_getElem.1 opcodeRows_disjoint
  have hagree : opcodeRows[n].2 &&& opcodeRows[k].1 = opcodeRows[k].2 &&& opcodeRows[n].1 := by
    rw [← hwp, ← hwq, BitVec.and_assoc, BitVec.and_assoc, BitVec.and_comm opcodeRows[n].1]
  obtain hlt | heq | hlt := Nat.lt_trichotomy n k
  · exact absurd hagree (hdisj n k hn hk hlt)
  · exact heq
  · exact absurd hagree.symm (hdisj k n hk hn hlt)

/-- Settles O5: a word that fits a row decodes to some command, whose own row it also fits. -/
theorem opcodeTableRowsAreTheDecoder : Obligations.OpcodeTableRowsAreTheDecoder := by
  intro w n row hrow
  constructor
  · intro hfit
    obtain ⟨i, hi⟩ :=
      (decode_isOk_iff_legal w).2 (legal_of_fits_row (List.mem_of_getElem? hrow) hfit)
    obtain ⟨hwf, rfl⟩ := decode_eq_ok_iff.1 hi
    obtain ⟨row', hrow', hfit'⟩ := encode_fits_row hwf
    exact ⟨i, hi, index_eq_of_fits_rows hrow' hrow hfit' hfit⟩
  · rintro ⟨i, hi, rfl⟩
    obtain ⟨hwf, rfl⟩ := decode_eq_ok_iff.1 hi
    obtain ⟨row', hrow', hfit⟩ := encode_fits_row hwf
    obtain rfl := Option.some.inj (hrow.symm.trans hrow')
    exact hfit

end Sys2Proof
end

section
/-! PROOFS. The engine's step on the pending word, a command or not, and the end of every pending
command (30_encoding.md R57 to R60). -/

namespace Sys2Proof.Machine

/-! ### The engine's turn -/

/-- Settles O56: both a completion and a turn of the host side answer a next state. -/
theorem everyStepAnswers : Obligations.EveryStepAnswers := by
  intro s
  obtain ⟨-, -, -, c, -, h⟩ | ⟨-, h⟩ := step_cases s
  · exact ⟨_, h⟩
  · exact ⟨_, h⟩

theorem State.turn_eq_engine_iff (s : State) :
    s.turn = .engine ↔ s.rstN = true ∧ s.busy = true ∧ s.wait = 0 := by
  simp [State.turn, and_assoc]

theorem step_of_decode_ok {s : State} {i : Instr} (ht : s.turn = .engine)
    (hd : decode s.cmd = .ok i) : step s = exec i s := by
  simp only [step, ht, hd]

theorem step_of_decode_error {s : State} {reason : Reject} (ht : s.turn = .engine)
    (hd : decode s.cmd = .error reason) : step s = .next (s.complete (.error .illegalCmd)) := by
  simp only [step, ht, hd, State.finish]

/-- Settles O7. -/
theorem engineStepRunsThePendingCommand : Obligations.EngineStepRunsThePendingCommand :=
  ⟨State.turn_eq_engine_iff, fun _ _ => step_of_decode_ok⟩

/-! ### Illegal words -/

/-- The completion of a word that is not legal takes the error ILLEGAL_CMD (R57). -/
theorem step_of_not_legal {s : State} (ht : s.turn = .engine) (h : legal s.cmd = false) :
    ∃ t, step s = .next t ∧ Failed .illegalCmd s t := by
  cases hd : decode s.cmd with
  | ok i =>
    have hlegal := (decode_isOk_iff_legal s.cmd).1 ⟨i, hd⟩
    cases h.symm.trans hlegal
  | error reason => exact ⟨_, step_of_decode_error ht hd, s.complete_failed .illegalCmd⟩

/-- A field that is zero has bit 3 clear, as a point register's has. -/
theorem bit3_of_ite {p : Prop} [Decidable p] {field : Reg}
    (h : if p then field = 0 else field.getLsbD 3 = false) : field.getLsbD 3 = false := by
  split at h
  · rw [h]; rfl
  · exact h

/-- Bit 3 of each of the fields RD, RS1 and RS2 as a bit of the word (R52). -/
theorem getLsbD_ofWord_bit3 (w : Word) :
    w.getLsbD 15 = (CmdFields.ofWord w).rd.getLsbD 3 ∧
      w.getLsbD 19 = (CmdFields.ofWord w).rs1.getLsbD 3 ∧
      w.getLsbD 23 = (CmdFields.ofWord w).rs2.getLsbD 3 := by
  simp [CmdFields.ofWord]

/-- Settles O6: each kind of word that R57 lists breaks one of the conditions of R56. -/
theorem illegalWordCompletesWithIllegalCmd : Obligations.IllegalWordCompletesWithIllegalCmd := by
  refine ⟨fun s => step_of_not_legal, ?_⟩
  intro w op hkind
  rw [← Bool.not_eq_true]
  intro hlegal
  have hopc : (CmdFields.ofWord w).opc.toNat = op := CmdFields.toNat_opc_ofWord w
  obtain ⟨hlow, hhigh, hop, hf0, hf1, hrs2, hm, hpoint⟩ := (CmdFields.legal_iff hopc).1 hlegal
  obtain ⟨hbit15, hbit19, hbit23⟩ := getLsbD_ofWord_bit3 w
  clear_value op
  simp only [List.mem_cons, List.not_mem_nil, or_false] at hop hkind
  rw [hbit15, hbit19, hbit23] at hkind
  rcases hkind with h | h | h | h | ⟨h, hne⟩ | ⟨h, hne⟩ | ⟨h, ho⟩ | ⟨h, ho⟩ | ⟨h, ho⟩ | ⟨h, ho⟩ |
    ⟨h, ho⟩ | ⟨h, ho⟩ | ⟨h, ho⟩
  · omega
  · omega
  · exact h hlow
  · exact h hhigh
  · have := hf0 h; omega
  · exact hne (hf1 h)
  · by_cases hp : 0x10 ≤ op
    · obtain ⟨-, -, -, -, hzero⟩ := hpoint hp
      exact h (hzero (by omega))
    · exact h (hrs2 (by omega))
  · obtain ⟨-, hrd, -⟩ := hpoint (by omega)
    exact h ((if_pos ho).mp hrd)
  · obtain ⟨-, -, hrs1, -⟩ := hpoint (by omega)
    exact h ((if_pos ho).mp hrs1)
  · have hzero : w.getLsbD 6 = false := ho.elim hm fun hp => (hpoint hp).1
    cases h.symm.trans hzero
  · obtain ⟨-, hrd, -⟩ := hpoint (by omega)
    cases h.symm.trans (bit3_of_ite hrd)
  · obtain ⟨-, -, hrs1, -⟩ := hpoint (by omega)
    cases h.symm.trans (bit3_of_ite hrs1)
  · obtain ⟨-, -, -, hrs2', -⟩ := hpoint (by omega)
    cases h.symm.trans (hrs2' ho)

/-! ### Issue -/

/-- Settles O38. -/
theorem issueStoresTheWordAndSetsBusy : Obligations.IssueStoresTheWordAndSetsBusy := by
  intro s a v rest h hal hk hb
  have hr : s.refuses a 0x004 = false := by
    rw [← Bool.not_eq_true, State.refuses_write_iff s _ hk]
    simp [hal, hb]
  refine (h.served_write hk hr).mono ?_
  rintro _ rfl
  exact ⟨rfl, rfl, rfl, rfl, rfl, rfl, rfl, rfl, rfl, rfl, rfl, rfl⟩

/-! ### The end of a pending command -/

/-- A turn of the host side that ends a pending command is a reset (R40, R108, R110). -/
theorem State.atReset_of_hostTurn_ends {s : State} (hr : s.rstN = true) (hb : s.busy = true)
    (ht : s.hostTurn.busy = false) : AtReset s.hostTurn := by
  obtain ⟨rest, reply, e⟩ | ⟨rest, -, e⟩ | ⟨a, off, v, rest, -, -, -, -, -, hlock, e⟩ :=
    State.hostTurn_effect hr <;> rw [e] at ht ⊢
  · cases hb.symm.trans ht
  · exact .of_eq rfl
  · obtain e | e | e | e := (s.beforeServing rest).writeSlot_unlocked v (hlock hb) <;>
      rw [e] at ht ⊢
    · cases hb.symm.trans ht
    · cases hb.symm.trans ht
    · exact .of_eq rfl
    · cases hb.symm.trans ht

/-- A turn of the host side that leaves a command pending leaves the reset pin released. -/
theorem State.rstN_hostTurn_of_busy {s : State} (hr : s.rstN = true)
    (ht : s.hostTurn.busy = true) : s.hostTurn.rstN = true := by
  obtain ⟨rest, reply, e⟩ | ⟨rest, -, e⟩ | ⟨a, off, v, rest, -, -, -, -, -, -, e⟩ :=
    State.hostTurn_effect hr <;> rw [e] at ht ⊢
  · exact hr
  · cases ht
  · obtain ⟨-, -, hpin⟩ := (s.beforeServing rest).writeSlot_pins (slotAt off) v
    exact hpin.trans hr

/-- The step from `s` to `u` ends the pending command of `s`, by its completion or by a reset. -/
def EndsCommand (s u : State) : Prop :=
  step s = .next u ∧ u.busy = false ∧ (u.done = true ∧ s.turn = .engine ∨ AtReset u)

/-- A step ends the pending command or passes one turn of its latency (R60). -/
theorem step_pending_cases {s : State} (hr : s.rstN = true) (hb : s.busy = true) :
    (∃ u, EndsCommand s u) ∨
    ∃ t, step s = .next t ∧ t.rstN = true ∧ t.busy = true ∧ t.cmd = s.cmd ∧
      t.wait + 1 = s.wait := by
  obtain ⟨-, -, hw, c, -, e⟩ | ⟨-, e⟩ := step_cases s
  · exact .inl ⟨_, e, rfl, .inl ⟨rfl, s.turn_eq_engine_iff.2 ⟨hr, hb, hw⟩⟩⟩
  · cases ht : s.hostTurn.busy with
    | false => exact .inl ⟨_, e, ht, .inr (State.atReset_of_hostTurn_ends hr hb ht)⟩
    | true =>
      obtain ⟨hcmd, -, -, -, -, -, hwait⟩ := pendingOperandsStayFixed s _ hr hb e ht
      exact .inr ⟨_, e, State.rstN_hostTurn_of_busy hr ht, ht, hcmd, hwait⟩

/-- The run that ends a pending command, by induction on the latency left. -/
theorem exists_run_endsCommand {s : State} (hr : s.rstN = true) (hb : s.busy = true) :
    ∃ n t u, n ≤ s.wait ∧ core.run n s = .next t ∧ t.rstN = true ∧ t.busy = true ∧
      t.cmd = s.cmd ∧ EndsCommand t u := by
  induction hw : s.wait generalizing s with
  | zero =>
    obtain ⟨u, hu⟩ | ⟨t, -, -, -, -, hwait⟩ := step_pending_cases hr hb
    · exact ⟨0, s, u, le_rfl, rfl, hr, hb, rfl, hu⟩
    · omega
  | succ k ih =>
    obtain ⟨u, hu⟩ | ⟨t, e, hr', hb', hcmd, hwait⟩ := step_pending_cases hr hb
    · exact ⟨0, s, u, Nat.zero_le _, rfl, hr, hb, rfl, hu⟩
    · obtain ⟨n, v, u, hn, hrun, hv, hbv, hcmd', hu⟩ := ih hr' hb' (by omega)
      exact ⟨n + 1, v, u, by omega, (run_succ_of_step e n).trans hrun, hv, hbv,
        hcmd'.trans hcmd, hu⟩

/-- Settles O55. -/
theorem acceptedCommandsComplete : Obligations.AcceptedCommandsComplete := by
  intro s hr hb
  obtain ⟨n, t, u, hn, hrun, hrt, hbt, hcmd, hstep, hbu, hend⟩ := exists_run_endsCommand hr hb
  exact ⟨n, t, u, hn, hrun, hstep, hrt, hbt, hcmd, hbu, hend⟩

end Sys2Proof.Machine
end

section
/-! PROOFS. The assembler reads the line of every command (30_encoding.md R61 to R63). -/

namespace Sys2Proof.Machine

/-! ### The words of a line -/

/-- The characters that part the words of a line (log entry 8). -/
def isSeparator (c : Char) : Bool := c = ' ' || c = ','

/-- A word of a line: not empty, and without a separator. -/
def isWord (w : List Char) : Bool := !w.isEmpty && w.all fun c => !isSeparator c

theorem isWord_iff (w : List Char) :
    isWord w = true ↔ w ≠ [] ∧ ∀ c ∈ w, isSeparator c = false := by
  simp [isWord]

theorem lineWords_eq (line : List Char) : lineWords line = splitRuns isSeparator line [] := rfl

section
variable {isSep : Char → Bool}

/-- Characters that are no separators join the run being read. -/
theorem splitRuns_append {w : List Char} (h : ∀ c ∈ w, isSep c = false) (rest word : List Char) :
    splitRuns isSep (w ++ rest) word = splitRuns isSep rest (w.reverse ++ word) := by
  induction w generalizing word with
  | nil => rfl
  | cons c w ih =>
    obtain ⟨hc, hw⟩ := List.forall_mem_cons.1 h
    simp only [List.cons_append, splitRuns, hc, List.reverse_cons, List.append_assoc]
    exact ih hw _

/-- A separator ends the run being read. -/
theorem splitRuns_separator {w : List Char} {c : Char} (hw : w ≠ []) (hc : isSep c = true)
    (rest : List Char) :
    splitRuns isSep (c :: rest) w.reverse = w :: splitRuns isSep rest [] := by
  simp [splitRuns, hc, hw]

/-- Of two separators in a row the first changes nothing. -/
theorem splitRuns_separators {c d : Char} (hc : isSep c = true) (hd : isSep d = true)
    (rest word : List Char) :
    splitRuns isSep (c :: d :: rest) word = splitRuns isSep (d :: rest) word := by
  by_cases hw : word = [] <;> simp [splitRuns, hc, hd, hw]

end

theorem operands_cons (a : List Char) (ops : List (List Char)) :
    ∃ rest, operands (a :: ops) = ' ' :: rest := by
  cases ops with
  | nil => exact ⟨a, rfl⟩
  | cons b ops => exact ⟨_, rfl⟩

/-- After a word, the operands are read back one by one. -/
theorem splitRuns_operands {w : List Char} {ops : List (List Char)} (hw : isWord w = true)
    (hops : ∀ v ∈ ops, isWord v = true) :
    splitRuns isSeparator (operands ops) w.reverse = w :: ops := by
  obtain ⟨hne, -⟩ := (isWord_iff w).1 hw
  induction ops generalizing w with
  | nil => simp [operands, splitRuns, hne]
  | cons a ops ih =>
    obtain ⟨ha, hrest⟩ := List.forall_mem_cons.1 hops
    obtain ⟨hne', hsep⟩ := (isWord_iff a).1 ha
    have hops' : splitRuns isSeparator (operands ops) a.reverse = a :: ops := ih ha hrest hne'
    cases ops with
    | nil =>
      rw [operands, splitRuns_separator hne rfl, ← hops', operands, ← List.append_nil a,
        splitRuns_append hsep, List.append_nil, List.append_nil]
    | cons b ops =>
      obtain ⟨rest, hb⟩ := operands_cons b ops
      rw [hb] at hops'
      rw [operands, splitRuns_separator hne rfl, splitRuns_append hsep, List.append_nil, hb,
        splitRuns_separators rfl rfl, hops']
      simp

theorem lineWords_operands {head : List Char} {ops : List (List Char)} (hhead : isWord head = true)
    (hops : ∀ w ∈ ops, isWord w = true) : lineWords (head ++ operands ops) = head :: ops := by
  obtain ⟨-, hsep⟩ := (isWord_iff head).1 hhead
  rw [lineWords_eq, splitRuns_append hsep, List.append_nil, splitRuns_operands hhead hops]

/-! ### Letters in either case -/

theorem assembleLine_map_toLower (line : List Char) :
    assembleLine (line.map Char.toLower) = assembleLine line := by
  have h : Char.toUpper ∘ Char.toLower = Char.toUpper := funext Char.toUpper_toLower_eq_toUpper
  simp only [assembleLine, List.map_map, h]

theorem map_toUpper_operands (ops : List (List Char)) :
    (operands ops).map Char.toUpper = operands (ops.map (List.map Char.toUpper)) := by
  have hblank : Char.toUpper ' ' = ' ' := by decide
  have hcomma : Char.toUpper ',' = ',' := by decide
  induction ops with
  | nil => rfl
  | cons a ops ih =>
    cases ops with
    | nil => simp [operands, hblank]
    | cons b ops => simp_all [operands]

/-- A line of a mnemonic and operands assembles to the command of the two in capitals. -/
theorem assembleLine_operands {head : List Char} {ops : List (List Char)}
    (hhead : isWord (head.map Char.toUpper) = true)
    (hops : ∀ w ∈ ops, isWord (w.map Char.toUpper) = true) :
    assembleLine (head ++ operands ops) =
      commandOf (splitAtDots (head.map Char.toUpper) []) (ops.map (List.map Char.toUpper)) := by
  rw [assembleLine, List.map_append, map_toUpper_operands,
    lineWords_operands hhead (by simpa using hops)]

/-! ### The names of operands -/

@[simp] theorem isWord_upper_regName :
    ∀ i : Reg, isWord ((regName i).map Char.toUpper) = true := by decide

@[simp] theorem isWord_upper_pointName :
    ∀ f : Reg, isWord ((pointName f).map Char.toUpper) = true := by decide

@[simp] theorem isWord_G : isWord ['G'] = true := by decide

@[simp] theorem readReg_upper_regName :
    ∀ i : Reg, readReg ((regName i).map Char.toUpper) = some i := by decide

theorem readPoint_upper_pointName :
    ∀ f : Reg, isPointField f = true → readPoint ((pointName f).map Char.toUpper) = some f := by
  decide

/-- No point register is called as the generator is. -/
theorem upper_pointName_ne_G : ∀ f : Reg, (pointName f).map Char.toUpper ≠ ['G'] := by decide

theorem withRegs2_regName (f : Reg → Reg → Instr) (rd rs1 : Reg) :
    withRegs2 f ([regName rd, regName rs1].map (List.map Char.toUpper)) = some (f rd rs1) := by
  simp [withRegs2]

theorem withRegs3_regName (f : Reg → Reg → Reg → Instr) (rd rs1 rs2 : Reg) :
    withRegs3 f ([regName rd, regName rs1, regName rs2].map (List.map Char.toUpper)) =
      some (f rd rs1 rs2) := by
  simp [withRegs3]

section
variable {pd ps1 ps2 : Reg} (hd : isPointField pd = true)
include hd

theorem withPoints2_pointName (f : Reg → Reg → Instr) (h1 : isPointField ps1 = true) :
    withPoints2 f ([pointName pd, pointName ps1].map (List.map Char.toUpper)) =
      some (f pd ps1) := by
  simp [withPoints2, readPoint_upper_pointName, hd, h1]

theorem withScalar_pointName (rn : Bool) (rk : Reg) (h1 : isPointField ps1 = true) :
    withScalar rn ([pointName pd, pointName ps1, regName rk].map (List.map Char.toUpper)) =
      some (.pmul rn pd ps1 rk) := by
  simp only [List.map_cons, List.map_nil]
  rw [withScalar]
  · simp [readPoint_upper_pointName, hd, h1]
  · exact upper_pointName_ne_G ps1

theorem withScalar_generator (rn : Bool) (rk : Reg) :
    withScalar rn ([pointName pd, ['G'], regName rk].map (List.map Char.toUpper)) =
      some (.pmulG rn pd rk) := by
  simp [withScalar, readPoint_upper_pointName, hd]

theorem pmulg_pointName (rn : Bool) (rk : Reg) :
    pointCommand.pmulg rn ([pointName pd, regName rk].map (List.map Char.toUpper)) =
      some (.pmulG rn pd rk) := by
  simp [pointCommand.pmulg, pmulgPseudo, readPoint_upper_pointName, hd]

theorem pointCommand_padd (h1 : isPointField ps1 = true) (h2 : isPointField ps2 = true) :
    pointCommand ([pointName pd, pointName ps1, pointName ps2].map (List.map Char.toUpper))
      ['P', 'A', 'D', 'D'] = some (.padd pd ps1 ps2) := by
  simp [pointCommand, readPoint_upper_pointName, hd, h1, h2]

end

theorem pointCommand_pchk {ps1 : Reg} (h1 : isPointField ps1 = true) :
    pointCommand ([pointName ps1].map (List.map Char.toUpper)) ['P', 'C', 'H', 'K'] =
      some (.pchk ps1) := by
  simp [pointCommand, readPoint_upper_pointName, h1]

/-! ### The lines -/

/-- The line of a command assembles to it (R61). -/
theorem assembleLine_asmLine {i : Instr} (h : i.wellFormed = true) :
    assembleLine (asmLine i) = some i := by
  cases i with
  | madd m rd rs1 rs2 | msub m rd rs1 rs2 | mmul m rd rs1 rs2 | mont m rd rs1 rs2
  | mdiv m rd rs1 rs2 =>
    rw [asmLine, assembleLine_operands (by cases m <;> decide) (by simp)]
    cases m <;> exact withRegs3_regName ..
  | mred m rd rs1 | minv m rd rs1 =>
    rw [asmLine, assembleLine_operands (by cases m <;> decide) (by simp)]
    cases m <;> exact withRegs2_regName ..
  | mpow m signed rd rs1 rs2 =>
    rw [asmLine, assembleLine_operands (by cases m <;> cases signed <;> decide) (by simp)]
    cases m <;> cases signed <;> exact withRegs3_regName ..
  | msqrt rd rs1 =>
    rw [asmLine, assembleLine_operands (by decide) (by simp)]
    exact withRegs2_regName ..
  | padd pd ps1 ps2 =>
    obtain ⟨⟨hd, h1⟩, h2⟩ :
        (isPointField pd = true ∧ isPointField ps1 = true) ∧ isPointField ps2 = true := by
      simpa [Instr.wellFormed] using h
    rw [asmLine, assembleLine_operands (by decide) (by simp)]
    exact pointCommand_padd hd h1 h2
  | pdbl pd ps1 | pneg pd ps1 =>
    obtain ⟨hd, h1⟩ : isPointField pd = true ∧ isPointField ps1 = true := by
      simpa [Instr.wellFormed] using h
    rw [asmLine, assembleLine_operands (by decide) (by simp)]
    exact withPoints2_pointName hd _ h1
  | pchk ps1 =>
    rw [asmLine, assembleLine_operands (by decide) (by simp)]
    exact pointCommand_pchk h
  | pmul rn pd ps1 rk =>
    obtain ⟨hd, h1⟩ : isPointField pd = true ∧ isPointField ps1 = true := by
      simpa [Instr.wellFormed] using h
    rw [asmLine, assembleLine_operands (by cases rn <;> decide) (by simp)]
    cases rn <;> exact withScalar_pointName hd _ _ h1
  | pmulG rn pd rk =>
    rw [asmLine, assembleLine_operands (by cases rn <;> decide) (by simp)]
    cases rn <;> exact withScalar_generator h _ _

/-- The line of MSQR assembles to a multiplication of a register by itself (R62). -/
theorem assembleLine_msqr (m : Modulus) (rd rs : Reg) :
    assembleLine (['M', 'S', 'Q', 'R'] ++ modulusSuffix m ++ operands [regName rd, regName rs]) =
      some (.mmul m rd rs rs) := by
  rw [assembleLine_operands (by cases m <;> decide) (by simp)]
  cases m <;> exact withRegs2_regName ..

/-- The line of PMULG assembles to a multiplication of the generator (R62). -/
theorem assembleLine_pmulg (rn : Bool) {pd : Reg} (rk : Reg) (hd : isPointField pd = true) :
    assembleLine (['P', 'M', 'U', 'L', 'G'] ++ optionSuffix rn ['.', 'R', 'N'] ++
      operands [pointName pd, regName rk]) = some (.pmulG rn pd rk) := by
  rw [assembleLine_operands (by cases rn <;> decide) (by simp)]
  cases rn <;> exact pmulg_pointName hd _ _

/-- Settles O8. -/
theorem assemblerReadsEveryLine : Obligations.AssemblerReadsEveryLine :=
  ⟨fun _ h => ⟨assembleLine_asmLine h, (assembleLine_map_toLower _).trans (assembleLine_asmLine h)⟩,
    assembleLine_msqr, fun rn _ rk => assembleLine_pmulg rn rk⟩

/-! ### The samples of R63 -/

/-- Settles O1: the sample lines and words are evaluated, and an illegal word is any illegal word. -/
theorem sampleLinesEncodeAndIllegalSamplesFail :
    Obligations.SampleLinesEncodeAndIllegalSamplesFail := by
  refine ⟨by decide +kernel, fun w hw => ?_⟩
  have hlegal : legal w = false := by
    have h : (!legal w) = true := (List.all_eq_true (p := fun v => !legal v)).1 (by decide) w hw
    simpa using h
  exact ⟨hlegal, fun s ht hcmd => step_of_not_legal ht (hcmd ▸ hlegal)⟩

end Sys2Proof.Machine
end

section
/-! PROOFS. The field arithmetic commands: what a field command writes and when it fails, the
arithmetic of their results, and the five commands (40_field_arith.md R65, R66, R68 to R72). -/

namespace Sys2Proof.Machine

/-! ### How a field command completes -/

/-- From `s`, the command completes and writes the integer `v` to the operand register `rd`, and
nothing else (R66). -/
def WritesField (rd : Reg) (v : Nat) (i : Instr) (s : State) : Prop :=
  ∃ t, exec i s = .next t ∧ t.nat rd = v ∧ t.qr = s.qr ∧ FieldWrote rd s t

theorem writesField_of_resultOf {i : Instr} {s : State} {m : Modulus} {rd : Reg} {v : Nat}
    (h : resultOf i s = writeReg rd v) (hv : v < modulusOf m) : WritesField rd v i s := by
  obtain ⟨hwrote, hreg, hqr⟩ := s.complete_reg rd (BitVec.ofNat 256 v)
  refine ⟨_, (exec_eq_complete_resultOf i s).trans (h ▸ rfl), ?_, hqr, hwrote⟩
  rw [State.nat, hreg, toNat_ofNat_of_lt (modulusOf_lt m) hv]

theorem failsWith_of_resultOf {i : Instr} {s : State} {e : ErrorCode}
    (h : resultOf i s = .error e) : FailsWith e i s :=
  ⟨_, (exec_eq_complete_resultOf i s).trans (h ▸ rfl), s.complete_failed e⟩

/-- The result of a field command with two checked operands, of which it writes the value `f`
(R65, R66). -/
def State.binaryResult (s : State) (m : Modulus) (f : Nat → Nat → Nat) (rd rs1 rs2 : Reg) :
    CommandResult := do
  let a ← s.element m rs1
  let b ← s.element m rs2
  writeReg rd (f a b)

section
variable {s : State} {m : Modulus} {f : Nat → Nat → Nat} {rd rs1 rs2 : Reg}

theorem State.binaryResult_ok (ha : s.nat rs1 < modulusOf m) (hb : s.nat rs2 < modulusOf m) :
    s.binaryResult m f rd rs1 rs2 = writeReg rd (f (s.nat rs1) (s.nat rs2)) := by
  rw [binaryResult, element_ok ha, element_ok hb]; rfl

theorem State.binaryResult_error (h : modulusOf m ≤ s.nat rs1 ∨ modulusOf m ≤ s.nat rs2) :
    s.binaryResult m f rd rs1 rs2 = .error .outOfRange := by
  rw [binaryResult]
  by_cases ha : modulusOf m ≤ s.nat rs1
  · rw [element_error ha]; rfl
  · rw [element_ok (Nat.not_le.1 ha), element_error (h.resolve_left ha)]; rfl

/-- A command with that result writes the value, or fails on an operand out of range. -/
theorem writesField_or_failsWith {i : Instr} (hi : resultOf i s = s.binaryResult m f rd rs1 rs2)
    (hf : f (s.nat rs1) (s.nat rs2) < modulusOf m) :
    (s.nat rs1 < modulusOf m → s.nat rs2 < modulusOf m →
      WritesField rd (f (s.nat rs1) (s.nat rs2)) i s) ∧
    (modulusOf m ≤ s.nat rs1 ∨ modulusOf m ≤ s.nat rs2 → FailsWith .outOfRange i s) :=
  ⟨fun ha hb => writesField_of_resultOf (hi.trans (State.binaryResult_ok ha hb)) hf,
    fun h => failsWith_of_resultOf (hi.trans (State.binaryResult_error h))⟩

end

/-! ### Addition, subtraction and multiplication -/

/-- Settles O9: the sum is reduced, so it is a residue the register holds. -/
theorem maddAddsModulo : Obligations.MaddAddsModulo := fun m _ _ _ _ =>
  ⟨rfl, writesField_or_failsWith (f := fun a b => (a + b) % modulusOf m) rfl
    (Nat.mod_lt _ (modulusOf_pos m))⟩

/-- The difference of two residues is a residue itself, or becomes one when m is added (R69). -/
theorem intMod_sub_of_lt {m a b : Nat} (ha : a < m) (hb : b < m) :
    intMod ((a : Int) - b) m = if b ≤ a then a - b else a + m - b := by
  split
  next h => rw [← Int.ofNat_sub h, intMod_natCast, Nat.mod_eq_of_lt (by omega)]
  next h =>
    have hshift : intMod ((a : Int) - b) m = intMod ((a + m - b : Nat) : Int) m := by
      rw [intMod, intMod, ← Int.add_emod_right]
      congr 2
      omega
    rw [hshift, intMod_natCast, Nat.mod_eq_of_lt (by omega)]

/-- Settles O10, by the two cases of the difference of residues. -/
theorem msubSubtractsModulo : Obligations.MsubSubtractsModulo := by
  intro m rd rs1 rs2 s
  obtain ⟨hok, herr⟩ := writesField_or_failsWith (s := s) (i := .msub m rd rs1 rs2)
    (f := fun a b => intMod ((a : Int) - b) (modulusOf m)) rfl (intMod_lt (modulusOf_pos m) _)
  exact ⟨rfl, fun ha hb => intMod_sub_of_lt ha hb ▸ hok ha hb, herr⟩

/-- Settles O11: the product is reduced, so it is a residue the register holds. -/
theorem mmulMultipliesModulo : Obligations.MmulMultipliesModulo := fun m _ _ _ _ =>
  ⟨rfl, writesField_or_failsWith (f := fun a b => a * b % modulusOf m) rfl
    (Nat.mod_lt _ (modulusOf_pos m))⟩

/-! ### The Montgomery product -/

/-- The radix R_M is invertible modulo m: inv_R is its inverse (R71). -/
theorem montInvR_mul_modEq (m : Modulus) : montInvR m * 2 ^ 256 ≡ 1 [MOD modulusOf m] :=
  (montInvR_mul m).trans (Nat.mod_eq_of_lt (by have := two_lt_modulusOf m; omega)).symm

theorem montMul_mul_radix (m : Modulus) (a b : Nat) :
    montMul m a b * 2 ^ 256 ≡ a * b [MOD modulusOf m] :=
  calc montMul m a b * 2 ^ 256
    _ ≡ a * b * montInvR m * 2 ^ 256 [MOD modulusOf m] := (Nat.mod_modEq _ _).mul_right _
    _ = a * b * (montInvR m * 2 ^ 256) := Nat.mul_assoc ..
    _ ≡ a * b * 1 [MOD modulusOf m] := (montInvR_mul_modEq m).mul_left _
    _ = a * b := Nat.mul_one _

theorem radix_cancel {m : Modulus} {u v : Nat} (h : u * 2 ^ 256 ≡ v * 2 ^ 256 [MOD modulusOf m]) :
    u ≡ v [MOD modulusOf m] := by
  have hcoprime : (2 ^ 256).Coprime (modulusOf m) :=
    Nat.coprime_of_mul_modEq_one (montInvR m) (Nat.mul_comm .. ▸ montInvR_mul_modEq m)
  exact h.cancel_right_of_coprime hcoprime.symm

/-- The residue t with t · 2^256 ≡ a · b is the Montgomery product (R71). -/
theorem eq_montMul_of_mul_radix {m : Modulus} {a b v : Nat} (hv : v < modulusOf m)
    (h : v * 2 ^ 256 ≡ a * b [MOD modulusOf m]) : v = montMul m a b :=
  (radix_cancel (h.trans (montMul_mul_radix m a b).symm)).eq_of_lt_of_lt hv (montMul_lt m a b)

/-- A second Montgomery product, with R_M² mod m, takes the radix out again (R71). -/
theorem montMul_montMul_radix_sq (m : Modulus) (a b : Nat) :
    montMul m (montMul m a b) (2 ^ 512 % modulusOf m) = a * b % modulusOf m := by
  refine (eq_montMul_of_mul_radix (Nat.mod_lt _ (modulusOf_pos m)) ?_).symm
  calc a * b % modulusOf m * 2 ^ 256
    _ ≡ a * b * 2 ^ 256 [MOD modulusOf m] := (Nat.mod_modEq _ _).mul_right _
    _ ≡ montMul m a b * 2 ^ 256 * 2 ^ 256 [MOD modulusOf m] :=
      (montMul_mul_radix m a b).symm.mul_right _
    _ = montMul m a b * 2 ^ 512 := by rw [Nat.mul_assoc, ← pow_add]
    _ ≡ montMul m a b * (2 ^ 512 % modulusOf m) [MOD modulusOf m] :=
      (Nat.mod_modEq _ _).symm.mul_left _

/-- Settles O12: the radix cancels modulo m, so the Montgomery product is the only residue. -/
theorem montIsTheMontgomeryProduct : Obligations.MontIsTheMontgomeryProduct := by
  intro m rd rs1 rs2 s
  obtain ⟨hok, herr⟩ := writesField_or_failsWith (s := s) (i := .mont m rd rs1 rs2)
    (f := montMul m) rfl (montMul_lt m _ _)
  refine ⟨rfl, fun ha hb => ?_, herr⟩
  obtain ⟨t, hexec, hval, hqr, hwrote⟩ := hok ha hb
  refine ⟨t, hexec, ?_⟩
  rw [hval]
  exact ⟨montMul_lt m _ _, montMul_mul_radix m _ _, fun v hv h => eq_montMul_of_mul_radix hv h,
    montMul_montMul_radix_sq m _ _, hqr, hwrote⟩

/-! ### Reduction -/

/-- A 256-bit value is below 2m, so that one subtraction reduces it (R72). -/
theorem mod_modulusOf_of_lt (m : Modulus) {v : Nat} (hv : v < 2 ^ 256) :
    v % modulusOf m = if v < modulusOf m then v else v - modulusOf m := by
  have hhalf : 2 ^ 256 ≤ 2 * modulusOf m := by cases m <;> decide +kernel
  split
  next h => exact Nat.mod_eq_of_lt h
  next h => rw [Nat.mod_eq_sub_mod (Nat.not_lt.1 h), Nat.mod_eq_of_lt (by omega)]

/-- Settles O13: MRED checks nothing, and both forms of the residue agree. -/
theorem mredReducesAnyValue : Obligations.MredReducesAnyValue := by
  intro m rd rs1 s
  obtain ⟨t, hexec, hval, hqr, hwrote⟩ : WritesField rd (s.nat rs1 % modulusOf m)
      (.mred m rd rs1) s :=
    writesField_of_resultOf rfl (Nat.mod_lt _ (modulusOf_pos m))
  exact ⟨rfl, t, hexec, hval.trans (mod_modulusOf_of_lt m (s.getR rs1).isLt), hval, hqr, hwrote⟩

end Sys2Proof.Machine
end

section
/-! PROOFS. The frame of all commands: which operand registers a result writes, and what the rest of
the window reads as afterwards (10_state.md R16; R59, R66, R82, R89). -/

namespace Sys2Proof.Machine

/-! ### The operand registers a command leaves alone -/

/-- The operand registers one write of W changes (R59, R82). -/
def Write.regs : Write → List Reg
  | .reg i _ => [i]
  | .point k _ => [xReg k, yReg k]
  | .qr _ => []

theorem State.applyWrite_getR_of_notMem (s : State) {x : Write} {r : Reg} (h : r ∉ x.regs) :
    (s.applyWrite x).getR r = s.getR r := by
  cases x with
  | reg i v => exact s.getR_setR_ne v (List.ne_of_not_mem_cons h)
  | point k q =>
    simp only [Write.regs, List.mem_cons, List.not_mem_nil, or_false, not_or] at h
    rw [State.applyWrite, State.ptWrite_getR, if_neg h.2, if_neg h.1]
  | qr b => rfl

/-- A commit without a write of an operand register keeps it. -/
theorem State.commit_getR_of_forall (s : State) {r : Reg} {ws : List Write}
    (h : ∀ x ∈ ws, r ∉ x.regs) : (s.commit ws).getR r = s.getR r := by
  induction ws generalizing s with
  | nil => rfl
  | cons x xs ih =>
    exact (ih _ fun y hy => h y (List.mem_cons_of_mem _ hy)).trans
      (s.applyWrite_getR_of_notMem (h x List.mem_cons_self))

theorem destinations_of_flagDestination {i : Instr} {k : PointReg}
    (h : flagDestination i = some k) : destinations i = [xReg k, yReg k] := by
  cases i <;> cases h <;> rfl

/-- What a command may write lies in its destination registers. -/
theorem MayWrite.regs_subset {i : Instr} {x : Write} (h : MayWrite i x) :
    x.regs ⊆ destinations i := by
  cases x with
  | reg rd v => exact List.cons_subset.2 ⟨h, List.nil_subset _⟩
  | point k q => exact (destinations_of_flagDestination h).symm ▸ List.Subset.refl _
  | qr b => exact List.nil_subset _

/-- A command changes no operand register but its destinations. -/
theorem complete_resultOf_getR {i : Instr} (s : State) {r : Reg} (h : r ∉ destinations i) :
    (s.complete (resultOf i s)).getR r = s.getR r := by
  have hw := onlyWrites_resultOf i s
  cases hc : resultOf i s with
  | error e => rfl
  | ok ws => exact s.commit_getR_of_forall fun x hx hr => h ((hw ws hc x hx).regs_subset hr)

/-! ### The rest of the window -/

/-- After a completion, a word of the window outside STATUS, ERRCODE and PINF reads as before, if it
belongs to no operand register or to one that kept its value (R42, R59). -/
theorem Completed.readSlot_eq {s t : State} (h : Completed s t) {off : Nat} (hst : off ≠ 0x008)
    (hec : off ≠ 0x00C) (hpf : off ≠ 0x014)
    (hr : ∀ r j, slotAt off = .operand r j → t.getR r = s.getR r) :
    t.readSlot (slotAt off) = s.readSlot (slotAt off) := by
  have hs := slotOf_slotAt off
  generalize slotAt off = slot at hs hr ⊢
  cases hs with
  | cmd => exact h.cmd
  | status e => exact absurd e hst
  | errcode e => exact absurd e hec
  | ie => simp only [State.readSlot, State.ieWord, h.doneIE, h.errIE]
  | pinf e => exact absurd e hpf
  | curveA => simp only [State.readSlot, h.curveA]
  | curveB => simp only [State.readSlot, h.curveB]
  | operand => simp only [State.readSlot, hr _ _ rfl]
  | id | ctrl | low | constP | constN | constGx | constGy | high => rfl

/-- The converse of `slotAt_operand`: an aligned offset that maps to an operand register lies on one
of its eight words (R15). -/
theorem offset_of_slotAt_operand {off j : Nat} {r : Reg} (hal : off % 4 = 0)
    (h : slotAt off = .operand r j) : j < 8 ∧ off = 0x100 + 0x20 * r.toNat + 4 * j := by
  have hs := slotOf_slotAt off
  rw [h] at hs
  cases hs with
  | operand hoff =>
    rw [BitVec.toNat_ofNat]
    omega

/-- Settles O35: a command changes, besides STATUS, ERRCODE and PINF, its destinations alone. -/
theorem commandsLeaveTheRestOfTheWindow : Obligations.CommandsLeaveTheRestOfTheWindow := by
  intro i s t ht off _ hal hst hec hpf hdest
  rw [exec_eq_complete_resultOf] at ht
  cases ht
  refine (s.complete_completed _).readSlot_eq hst hec hpf fun r j hslot => ?_
  obtain ⟨hj, hoff⟩ := offset_of_slotAt_operand hal hslot
  exact complete_resultOf_getR s fun hr => hdest r hr j hj hoff

end Sys2Proof.Machine
end

section
/-! PROOFS. The field exponentiation commands: inverses by Fermat, square roots by Euler's criterion,
and the four commands (41_field_exp.md R74 to R77). -/

namespace Sys2Proof.Machine

/-! ### Exponentiation -/

/-- The exponent register as R74 reads it: with S, values from 2^255 up stand for negative ones. -/
theorem exponentOf_eq (signed : Bool) (v : Word256) : exponentOf signed v =
    if signed ∧ 2 ^ 255 ≤ v.toNat then (v.toNat : Int) - 2 ^ 256 else (v.toNat : Int) := by
  cases signed with
  | false => simp [exponentOf]
  | true =>
    have hsign : 2 * v.toNat < 2 ^ 256 ↔ ¬ 2 ^ 255 ≤ v.toNat := by omega
    simp only [exponentOf, if_true, true_and, BitVec.toInt_eq_toNat_cond, hsign, ite_not]
    rfl

/-- The normalised exponent is the integer remainder modulo m - 1 (R74). -/
theorem intMod_modulusOf_sub_one (m : Modulus) (e : Int) :
    intMod e (modulusOf m - 1) = (e % ((modulusOf m : Int) - 1)).toNat := by
  rw [intMod, Nat.cast_pred (modulusOf_pos m)]

theorem State.mpowResult_ok {s : State} {m : Modulus} {rs1 : Reg} (h : s.nat rs1 < modulusOf m)
    (signed : Bool) (rd rs2 : Reg) :
    s.mpowResult m signed rd rs1 rs2 = writeReg rd (modExp (modulusOf m) (s.nat rs1)
      (intMod (exponentOf signed (s.getR rs2)) (modulusOf m - 1))) := by
  rw [mpowResult, element_ok h]; rfl

theorem State.mpowResult_error {s : State} {m : Modulus} {rs1 : Reg} (h : modulusOf m ≤ s.nat rs1)
    (signed : Bool) (rd rs2 : Reg) : s.mpowResult m signed rd rs1 rs2 = .error .outOfRange := by
  rw [mpowResult, element_error h]; rfl

/-- Settles O14: the loop computes the power, and the exponent is R74's. -/
theorem mpowRaisesToTheNormalisedExponent : Obligations.MpowRaisesToTheNormalisedExponent := by
  intro m signed rd rs1 rs2 s
  have hm : 1 < modulusOf m := (prime_modulusOf m).one_lt
  refine ⟨rfl, fun ha => ?_, fun ha => failsWith_of_resultOf (State.mpowResult_error ha ..)⟩
  obtain ⟨t, hexec, hval, hqr, hwrote⟩ := writesField_of_resultOf
    (i := .mpow m signed rd rs1 rs2) (State.mpowResult_ok ha ..) (modExp_lt hm _ _)
  rw [modExp_eq hm, exponentOf_eq, intMod_modulusOf_sub_one] at hval
  exact ⟨t, hexec, hval, hqr, hwrote⟩

/-! ### Inversion and division -/

/-- The inverse by Fermat: a · a^(m-2) = a^(m-1), which is 1 modulo the prime m (R12, R75). -/
theorem mul_modInv_modEq (m : Modulus) {a : Nat} (h0 : a ≠ 0) (ha : a < modulusOf m) :
    a * modInv (modulusOf m) a ≡ 1 [MOD modulusOf m] := by
  have hm := two_lt_modulusOf m
  rw [modInv_eq (by omega)]
  calc a * (a ^ (modulusOf m - 2) % modulusOf m)
    _ ≡ a * a ^ (modulusOf m - 2) [MOD modulusOf m] := (Nat.mod_modEq _ _).mul_left _
    _ = a ^ (modulusOf m - 1) := by rw [← pow_succ']; congr 1; omega
    _ ≡ 1 [MOD modulusOf m] := Nat.ModEq.pow_card_sub_one_eq_one (prime_modulusOf m)
      (Nat.coprime_of_lt_prime h0 ha (prime_modulusOf m)).symm

/-- The quotient times the divisor is the dividend (R76). -/
theorem mul_modInv_mul_modEq (m : Modulus) (a : Nat) {b : Nat} (h0 : b ≠ 0) (hb : b < modulusOf m) :
    a * modInv (modulusOf m) b % modulusOf m * b ≡ a [MOD modulusOf m] :=
  calc a * modInv (modulusOf m) b % modulusOf m * b
    _ ≡ a * modInv (modulusOf m) b * b [MOD modulusOf m] := (Nat.mod_modEq _ _).mul_right _
    _ = a * (b * modInv (modulusOf m) b) := by ring
    _ ≡ a * 1 [MOD modulusOf m] := (mul_modInv_modEq m h0 hb).mul_left _
    _ = a := Nat.mul_one a

section
variable {s : State} {m : Modulus} {rs1 rs2 : Reg} (rd : Reg)

theorem State.minvResult_ok (ha : s.nat rs1 < modulusOf m) (h0 : s.nat rs1 ≠ 0) :
    s.minvResult m rd rs1 = writeReg rd (modInv (modulusOf m) (s.nat rs1)) := by
  simp only [minvResult, element_ok ha, checkDivisor_ok h0, bind, Except.bind]

theorem State.minvResult_outOfRange (ha : modulusOf m ≤ s.nat rs1) :
    s.minvResult m rd rs1 = .error .outOfRange := by
  rw [minvResult, element_error ha]; rfl

theorem State.minvResult_zeroDivisor (h0 : s.nat rs1 = 0) :
    s.minvResult m rd rs1 = .error .zeroDivisor := by
  rw [minvResult, element_ok (h0 ▸ modulusOf_pos m), h0]; rfl

theorem State.mdivResult_ok (ha : s.nat rs1 < modulusOf m) (hb : s.nat rs2 < modulusOf m)
    (h0 : s.nat rs2 ≠ 0) : s.mdivResult m rd rs1 rs2 =
      writeReg rd (s.nat rs1 * modInv (modulusOf m) (s.nat rs2) % modulusOf m) := by
  simp only [mdivResult, element_ok ha, element_ok hb, checkDivisor_ok h0, bind, Except.bind]

theorem State.mdivResult_outOfRange (h : modulusOf m ≤ s.nat rs1 ∨ modulusOf m ≤ s.nat rs2) :
    s.mdivResult m rd rs1 rs2 = .error .outOfRange := by
  rw [mdivResult]
  by_cases ha : modulusOf m ≤ s.nat rs1
  · rw [element_error ha]; rfl
  · rw [element_ok (Nat.not_le.1 ha), element_error (h.resolve_left ha)]; rfl

theorem State.mdivResult_zeroDivisor (ha : s.nat rs1 < modulusOf m) (h0 : s.nat rs2 = 0) :
    s.mdivResult m rd rs1 rs2 = .error .zeroDivisor := by
  rw [mdivResult, element_ok ha, element_ok (h0 ▸ modulusOf_pos m), h0]; rfl

end

/-- Settles O15, by Fermat's inverse. -/
theorem minvIsTheInverse : Obligations.MinvIsTheInverse := by
  intro m rd rs1 s
  have hm : 1 < modulusOf m := (prime_modulusOf m).one_lt
  refine ⟨rfl, fun ha h0 => ?_, fun ha => failsWith_of_resultOf (State.minvResult_outOfRange rd ha),
    fun h0 => failsWith_of_resultOf (State.minvResult_zeroDivisor rd h0)⟩
  obtain ⟨t, hexec, hval, hqr, hwrote⟩ := writesField_of_resultOf (i := .minv m rd rs1)
    (State.minvResult_ok rd ha h0) (modExp_lt hm _ _)
  have hinv : s.nat rs1 * t.nat rd % modulusOf m = 1 := by
    rw [hval]
    exact Eq.trans (mul_modInv_modEq m h0 ha) (Nat.mod_eq_of_lt hm)
  exact ⟨t, hexec, hval.trans (modInv_eq hm _), hinv, hqr, hwrote⟩

/-- Settles O16, by the inverse of the divisor. -/
theorem mdivDividesModulo : Obligations.MdivDividesModulo := by
  intro m rd rs1 rs2 s
  have hm : 1 < modulusOf m := (prime_modulusOf m).one_lt
  refine ⟨rfl, fun ha hb h0 => ?_,
    fun h => failsWith_of_resultOf (State.mdivResult_outOfRange rd h),
    fun ha h0 => failsWith_of_resultOf (State.mdivResult_zeroDivisor rd ha h0)⟩
  obtain ⟨t, hexec, hval, hqr, hwrote⟩ := writesField_of_resultOf (i := .mdiv m rd rs1 rs2)
    (State.mdivResult_ok rd ha hb h0) (Nat.mod_lt _ (modulusOf_pos m))
  have hmul : t.nat rd * s.nat rs2 % modulusOf m = s.nat rs1 := by
    rw [hval]
    exact Eq.trans (mul_modInv_mul_modEq m _ h0 hb) (Nat.mod_eq_of_lt ha)
  rw [modInv_eq hm, Nat.mul_mod_mod] at hval
  exact ⟨t, hexec, hval, hmul, hqr, hwrote⟩

/-! ### The square root -/

section
variable {p : Nat}

/-- A residue is a product modulo p exactly if it is one in ZMod p. -/
theorem mul_mod_eq_iff_cast {x y v : Nat} (hv : v < p) :
    x * y % p = v ↔ (x * y : ZMod p) = v := by
  rw [← Nat.cast_mul, ZMod.natCast_eq_natCast_iff', Nat.mod_eq_of_lt hv]

/-- The square of a^((p+1)/4), for a prime p ≡ 3 (mod 4), is a · a^(p/2) (R77). -/
theorem pow_succ_div_four_mul_self (hp : p % 4 = 3) (a : ZMod p) :
    a ^ ((p + 1) / 4) * a ^ ((p + 1) / 4) = a * a ^ (p / 2) := by
  rw [← pow_add, ← pow_succ']
  congr 1
  omega

variable [Fact p.Prime]

theorem pow_succ_div_four_mul_self_of_isSquare (hp : p % 4 = 3) {a : ZMod p} (h : IsSquare a) :
    a ^ ((p + 1) / 4) * a ^ ((p + 1) / 4) = a := by
  rw [pow_succ_div_four_mul_self hp]
  by_cases h0 : a = 0
  · rw [h0, zero_mul]
  · rw [(ZMod.euler_criterion p h0).1 h, mul_one]

theorem pow_succ_div_four_mul_self_of_not_isSquare (hp : p % 4 = 3) {a : ZMod p}
    (h : ¬ IsSquare a) : a ^ ((p + 1) / 4) * a ^ ((p + 1) / 4) = -a := by
  have h0 : a ≠ 0 := by
    rintro rfl; exact h (IsSquare.zero)
  have hpow : a ^ (p / 2) = -1 := (ZMod.pow_div_two_eq_neg_one_or_one p h0).resolve_left
    (mt (ZMod.euler_criterion p h0).2 h)
  rw [pow_succ_div_four_mul_self hp, hpow, mul_neg_one]

/-- Squares modulo p are the squares of the field. -/
theorem isSquare_cast_iff {a : Nat} (ha : a < p) :
    IsSquare (a : ZMod p) ↔ ∃ x, x * x % p = a := by
  constructor
  · rintro ⟨y, hy⟩
    refine ⟨y.val, (mul_mod_eq_iff_cast ha).2 ?_⟩
    rw [ZMod.natCast_zmod_val, hy]
  · rintro ⟨x, hx⟩
    exact ⟨x, ((mul_mod_eq_iff_cast ha).1 hx).symm⟩

theorem cast_modExp (a e : Nat) : (modExp p a e : ZMod p) = (a : ZMod p) ^ e := by
  rw [modExp_eq (Fact.out : p.Prime).one_lt, ZMod.natCast_mod, Nat.cast_pow]

/-- The value MSQRT writes is a root of every square (R77). -/
theorem modExp_root_mul_self_of_square (hp : p % 4 = 3) {a : Nat} (ha : a < p)
    (h : ∃ x, x * x % p = a) :
    modExp p a ((p + 1) / 4) * modExp p a ((p + 1) / 4) % p = a := by
  rw [mul_mod_eq_iff_cast ha, cast_modExp]
  exact pow_succ_div_four_mul_self_of_isSquare hp ((isSquare_cast_iff ha).2 h)

/-- Of a value that is no square, MSQRT writes a root of its negative (R77). -/
theorem modExp_root_mul_self_of_not_square (hp : p % 4 = 3) {a : Nat} (ha : a < p)
    (h : ¬ ∃ x, x * x % p = a) :
    modExp p a ((p + 1) / 4) * modExp p a ((p + 1) / 4) % p = p - a := by
  have h0 : a ≠ 0 := by
    rintro rfl; exact h ⟨0, Nat.zero_mod p⟩
  rw [mul_mod_eq_iff_cast (by omega), cast_modExp, Nat.cast_sub ha.le, ZMod.natCast_self, zero_sub]
  exact pow_succ_div_four_mul_self_of_not_isSquare hp (mt (isSquare_cast_iff ha).1 h)

end

theorem State.msqrtResult_ok {s : State} {rs1 : Reg} (h : s.nat rs1 < Config.P) (rd : Reg) :
    let root := modExp Config.P (s.nat rs1) ((Config.P + 1) / 4)
    s.msqrtResult rd rs1 =
      .ok [.reg rd (BitVec.ofNat 256 root), .qr (root * root % Config.P == s.nat rs1)] := by
  rw [msqrtResult, element_ok (m := .P) h]; rfl

theorem State.msqrtResult_error {s : State} {rs1 : Reg} (h : Config.P ≤ s.nat rs1) (rd : Reg) :
    s.msqrtResult rd rs1 = .error .outOfRange := by
  rw [msqrtResult, element_error (m := .P) h]; rfl

/-- A completion that writes a residue to one operand register, and QR (R77). -/
theorem State.complete_regQr (s : State) (rd : Reg) {v : Nat} (hv : v < Config.P) (b : Bool) :
    let t := s.complete (.ok [.reg rd (BitVec.ofNat 256 v), .qr b])
    t.nat rd = v ∧ t.qr = b ∧ FieldWrote rd s t :=
  ⟨(congrArg BitVec.toNat (s.getR_setR_same rd _)).trans (toNat_ofNat_of_lt P_lt hv), rfl,
    { s.complete_succeeded [.reg rd (BitVec.ofNat 256 v), .qr b] with
      others := fun _ hi => s.getR_setR_ne _ hi
      pinf := rfl }⟩

/-- MSQRT of a field element writes a^((P+1)/4) mod P, and in QR whether its square is a (R77). -/
theorem exec_msqrt {s : State} {rs1 : Reg} (h : s.nat rs1 < Config.P) (rd : Reg) :
    ∃ t, exec (.msqrt rd rs1) s = .next t ∧
      t.nat rd = modExp Config.P (s.nat rs1) ((Config.P + 1) / 4) ∧
      (t.qr = true ↔ t.nat rd * t.nat rd % Config.P = s.nat rs1) ∧ FieldWrote rd s t := by
  have hexec := exec_eq_complete_resultOf (.msqrt rd rs1) s
  rw [resultOf, State.msqrtResult_ok h] at hexec
  obtain ⟨hval, hqr, hwrote⟩ := s.complete_regQr rd (modExp_lt prime_P.one_lt _ _) _
  exact ⟨_, hexec, hval, by rw [hqr, hval, beq_iff_eq], hwrote⟩

/-- Settles O17: P ≡ 3 (mod 4), so that Euler's criterion decides whether the value is a root. -/
theorem msqrtWritesTheRootAndQr : Obligations.MsqrtWritesTheRootAndQr := by
  have : Fact Config.P.Prime := ⟨prime_P⟩
  have hp : Config.P % 4 = 3 := by decide +kernel
  refine ⟨fun rd rs1 s => ⟨rfl, fun ha => ?_,
    fun ha => failsWith_of_resultOf (State.msqrtResult_error ha rd)⟩, fun w hopc hm => ?_⟩
  · obtain ⟨t, hexec, hval, hqr, hwrote⟩ := exec_msqrt ha rd
    have hroot : (∃ x, x * x % Config.P = s.nat rs1) →
        t.nat rd * t.nat rd % Config.P = s.nat rs1 := by
      rw [hval]; exact modExp_root_mul_self_of_square hp ha
    have hneg : ¬ (∃ x, x * x % Config.P = s.nat rs1) →
        t.nat rd * t.nat rd % Config.P = Config.P - s.nat rs1 := by
      rw [hval]; exact modExp_root_mul_self_of_not_square hp ha
    have hsquare : t.qr = true ↔ ∃ x, x * x % Config.P = s.nat rs1 :=
      hqr.trans ⟨fun h => ⟨_, h⟩, hroot⟩
    refine ⟨t, hexec, hval.trans (modExp_eq prime_P.one_lt _ _), hqr, hsquare, fun h => ?_, hwrote⟩
    exact hneg (mt hsquare.2 (Bool.not_eq_true _ ▸ h))
  · refine illegalWordCompletesWithIllegalCmd.2 w ?_
    simp only [hm, hopc, true_and, true_or, or_true]

end Sys2Proof.Machine
end

section
/-! PROOFS. The group law (42_point.md R83 to R85): its cases, the chord and the tangent as Mathlib's
Weierstrass curves have them, and the points of a curve. -/

namespace Sys2Proof.Machine

/-! ### The cases of the law -/

@[simp] theorem pointAdd_inf_left (a : Nat) (q : Point) : pointAdd a .inf q = q := rfl

@[simp] theorem pointAdd_inf_right (a : Nat) (p : Point) : pointAdd a p .inf = p := by
  cases p <;> rfl

theorem pointAdd_of_y_ne (a x : Nat) {y1 y2 : Nat} (h : y1 ≠ y2) :
    pointAdd a (.affine x y1) (.affine x y2) = .inf := by
  simp only [pointAdd, if_true, if_pos h]

theorem pointAdd_self_of_y_eq_zero (a x : Nat) :
    pointAdd a (.affine x 0) (.affine x 0) = .inf := by
  simp [pointAdd]

/-- The two points are such that R83 adds them by a chord or a tangent. -/
def HasThirdPoint (x1 y1 x2 y2 : Nat) : Prop := x1 = x2 → y1 = y2 ∧ y1 ≠ 0

theorem pointAdd_of_not_hasThirdPoint (a : Nat) {x1 y1 x2 y2 : Nat}
    (h : ¬ HasThirdPoint x1 y1 x2 y2) : pointAdd a (.affine x1 y1) (.affine x2 y2) = .inf := by
  obtain rfl : x1 = x2 := by_contra fun hx => h fun e => absurd e hx
  by_cases hy : y1 = y2
  · obtain rfl : y1 = 0 := by_contra fun h0 => h fun _ => ⟨hy, h0⟩
    rw [← hy, pointAdd_self_of_y_eq_zero]
  · exact pointAdd_of_y_ne a x1 hy

theorem pointAdd_self_of_y_ne_zero (a x : Nat) {y : Nat} (h : y ≠ 0) :
    pointAdd a (.affine x y) (.affine x y) =
      chordPoint (intMod ((3 * (x : Int) ^ 2 + a) * modInv Config.P (2 * y % Config.P)) Config.P)
        x y x := by
  simp [pointAdd, h]

theorem pointAdd_of_x_ne (a : Nat) {x1 x2 : Nat} (y1 y2 : Nat) (h : x1 ≠ x2) :
    pointAdd a (.affine x1 y1) (.affine x2 y2) =
      chordPoint (intMod (((y2 : Int) - y1) * modInv Config.P (intMod ((x2 : Int) - x1) Config.P))
        Config.P) x1 y1 x2 := by
  simp only [pointAdd, if_neg h]

/-! ### The denominators -/

/-- The denominator of a chord is not zero (R84). -/
theorem sub_emod_P_ne_zero {x1 x2 : Nat} (h1 : x1 < Config.P) (h2 : x2 < Config.P) (h : x1 ≠ x2) :
    ((x2 : Int) - x1) % (Config.P : Int) ≠ 0 := by
  intro h0
  have hmod : x1 ≡ x2 [MOD Config.P] := Nat.modEq_iff_dvd.2 (Int.dvd_of_emod_eq_zero h0)
  exact h (hmod.eq_of_lt_of_lt h1 h2)

theorem P_mod_two : Config.P % 2 = 1 := by decide +kernel

/-- The denominator of a tangent is not zero, since P is odd (R84). -/
theorem two_mul_mod_P_ne_zero {y : Nat} (hy : y < Config.P) (h : y ≠ 0) :
    2 * y % Config.P ≠ 0 := by
  have hodd := P_mod_two
  intro h0
  obtain ⟨c, hc⟩ := Nat.dvd_of_mod_eq_zero h0
  have hc2 : c < 2 := Nat.lt_of_mul_lt_mul_left (a := Config.P) (by omega)
  interval_cases c <;> omega

theorem cast_sub_ne_zero {x1 x2 : Nat} (h1 : x1 < Config.P) (h2 : x2 < Config.P) (h : x1 ≠ x2) :
    (x2 : ZMod Config.P) - x1 ≠ 0 :=
  fun h0 => h (eq_of_cast_eq h1 h2 (sub_eq_zero.1 h0).symm)

theorem cast_two_mul_ne_zero {y : Nat} (hy : y < Config.P) (h : y ≠ 0) :
    (2 * y : ZMod Config.P) ≠ 0 := by
  intro h0
  refine two_mul_mod_P_ne_zero hy h (Nat.mod_eq_zero_of_dvd ?_)
  rw [← ZMod.natCast_eq_zero_iff]
  exact_mod_cast h0

/-! ### The law in the field ZMod P -/

/-- The curve y² = x³ + a·x + b over the field of P (R78), as Mathlib has Weierstrass curves. -/
@[simps] def weierstrass (a b : Nat) : WeierstrassCurve.Affine (ZMod Config.P) where
  a₁ := 0
  a₂ := 0
  a₃ := 0
  a₄ := a
  a₆ := b

theorem onCurve_affine_iff_equation (a b x y : Nat) :
    onCurve a b (.affine x y) = true ↔ (weierstrass a b).Equation x y := by
  rw [onCurve_affine_iff, WeierstrassCurve.Affine.equation_iff]
  simp

theorem negY_weierstrass (a b : Nat) (x y : ZMod Config.P) : (weierstrass a b).negY x y = -y := by
  simp

theorem addX_weierstrass (a b : Nat) (x1 x2 sl : ZMod Config.P) :
    (weierstrass a b).addX x1 x2 sl = sl ^ 2 - x1 - x2 := by
  simp

theorem addY_weierstrass (a b : Nat) (x1 x2 y1 sl : ZMod Config.P) :
    (weierstrass a b).addY x1 x2 y1 sl = sl * (x1 - (sl ^ 2 - x1 - x2)) - y1 := by
  rw [WeierstrassCurve.Affine.addY, negY_weierstrass, WeierstrassCurve.Affine.negAddY,
    addX_weierstrass]
  ring

/-- The slope of R83 without a division: of the tangent at the one point, or of the chord. -/
def IsSlope (a x1 y1 x2 y2 : Nat) (sl : ZMod Config.P) : Prop :=
  if x1 = x2 then sl * (2 * y1) = 3 * (x1 : ZMod Config.P) ^ 2 + a
  else sl * (x2 - x1) = (y2 : ZMod Config.P) - y1

section
variable [Fact Config.P.Prime] {x1 y1 x2 y2 : Nat} (h1 : (Point.affine x1 y1).InRange)
  (h2 : (Point.affine x2 y2).InRange)
include h1 h2

/-- The line through two such points is not vertical. -/
theorem HasThirdPoint.not_vertical (h : HasThirdPoint x1 y1 x2 y2) (a b : Nat) :
    ¬ ((x1 : ZMod Config.P) = x2 ∧ (y1 : ZMod Config.P) = (weierstrass a b).negY x2 y2) := by
  rintro ⟨hx, hy⟩
  obtain ⟨rfl, h0⟩ := h (eq_of_cast_eq h1.1 h2.1 hx)
  rw [negY_weierstrass, eq_neg_iff_add_eq_zero, ← two_mul] at hy
  exact cast_two_mul_ne_zero h1.2 h0 hy

/-- Such points add up to the third point of a line whose slope is R83's. -/
theorem HasThirdPoint.exists_slope (h : HasThirdPoint x1 y1 x2 y2) (a : Nat) :
    ∃ sl : Nat, pointAdd a (.affine x1 y1) (.affine x2 y2) = chordPoint sl x1 y1 x2 ∧
      IsSlope a x1 y1 x2 y2 sl := by
  by_cases hx : x1 = x2
  · subst hx
    obtain ⟨rfl, h0⟩ := h rfl
    refine ⟨_, pointAdd_self_of_y_ne_zero a x1 h0, (if_pos rfl).mpr ?_⟩
    rw [cast_intMod]
    push_cast
    rw [cast_modInv, ZMod.natCast_mod, Nat.cast_mul, Nat.cast_two,
      inv_mul_cancel_right₀ (cast_two_mul_ne_zero h1.2 h0)]
  · refine ⟨_, pointAdd_of_x_ne a y1 y2 hx, (if_neg hx).mpr ?_⟩
    rw [cast_intMod]
    push_cast
    rw [cast_modInv, cast_intMod]
    push_cast
    rw [inv_mul_cancel_right₀ (cast_sub_ne_zero h1.1 h2.1 hx)]

/-- Such points add up to a pair in range that R83's formulas give, read in ZMod P. -/
theorem HasThirdPoint.exists_sum (h : HasThirdPoint x1 y1 x2 y2) (a : Nat) :
    ∃ sl x3 y3 : Nat, pointAdd a (.affine x1 y1) (.affine x2 y2) = .affine x3 y3 ∧
      (Point.affine x3 y3).InRange ∧ IsSlope a x1 y1 x2 y2 sl ∧
      (x3 : ZMod Config.P) = sl ^ 2 - x1 - x2 ∧ (y3 : ZMod Config.P) = sl * (x1 - x3) - y1 := by
  obtain ⟨sl, hadd, hsl⟩ := h.exists_slope h1 h2 a
  refine ⟨sl, _, _, hadd, chordPoint_inRange sl x1 y1 x2, hsl, ?_, ?_⟩
  · rw [cast_intMod]
    push_cast
    rfl
  · rw [cast_intMod]
    push_cast
    rfl

/-- The slope of R83 is Mathlib's, on every curve with the coefficient a. -/
theorem HasThirdPoint.eq_slope (h : HasThirdPoint x1 y1 x2 y2) {a : Nat} {sl : ZMod Config.P}
    (hsl : IsSlope a x1 y1 x2 y2 sl) (b : Nat) : sl = (weierstrass a b).slope x1 x2 y1 y2 := by
  by_cases hx : x1 = x2
  · subst hx
    obtain ⟨rfl, h0⟩ := h rfl
    have hy : (y1 : ZMod Config.P) ≠ (weierstrass a b).negY x1 y1 :=
      fun e => h.not_vertical h1 h2 a b ⟨rfl, e⟩
    rw [WeierstrassCurve.Affine.slope_of_Y_ne rfl hy, negY_weierstrass, sub_neg_eq_add, ← two_mul,
      eq_div_iff (cast_two_mul_ne_zero h1.2 h0), (if_pos rfl).mp hsl]
    simp
  · have hne := cast_sub_ne_zero h1.1 h2.1 hx
    rw [WeierstrassCurve.Affine.slope_of_X_ne (sub_ne_zero.1 hne).symm,
      ← neg_sub (y2 : ZMod Config.P), ← neg_sub (x2 : ZMod Config.P), neg_div_neg_eq,
      eq_div_iff hne, (if_neg hx).mp hsl]

end

/-- The law is commutative on points in range: the slope of a chord is the same from either of its
points, and so is its third point. -/
theorem pointAdd_comm (a : Nat) {p q : Point} (hp : p.InRange) (hq : q.InRange) :
    pointAdd a p q = pointAdd a q p := by
  have : Fact Config.P.Prime := ⟨prime_P⟩
  cases p with
  | inf => simp
  | affine x1 y1 =>
    cases q with
    | inf => simp
    | affine x2 y2 =>
      by_cases hx : x1 = x2
      · subst hx
        by_cases hy : y1 = y2
        · rw [hy]
        · rw [pointAdd_of_y_ne a x1 hy, pointAdd_of_y_ne a x1 (Ne.symm hy)]
      · obtain ⟨sl, x3, y3, hadd, h3, hsl, ex, ey⟩ :=
          HasThirdPoint.exists_sum hp hq (fun e => absurd e hx) a
        obtain ⟨sl', x3', y3', hadd', h3', hsl', ex', ey'⟩ :=
          HasThirdPoint.exists_sum hq hp (fun e => absurd e.symm hx) a
        have hs : (sl : ZMod Config.P) * (x2 - x1) = y2 - y1 := (if_neg hx).mp hsl
        have hs' : (sl' : ZMod Config.P) * (x1 - x2) = y1 - y2 := (if_neg (Ne.symm hx)).mp hsl'
        have es : (sl : ZMod Config.P) = sl' :=
          mul_right_cancel₀ (cast_sub_ne_zero hp.1 hq.1 hx) (by linear_combination hs + hs')
        have exx : x3 = x3' := eq_of_cast_eq h3.1 h3'.1 (by rw [ex, ex', es]; ring)
        have eyy : y3 = y3' := eq_of_cast_eq h3.2 h3'.2 (by
          rw [ey, ey', ← exx, ← es]
          linear_combination -hs)
        rw [hadd, hadd', exx, eyy]

/-- Settles O25: the formulas of the third point hold in ZMod P, hence as congruences. -/
theorem groupLawCases : Obligations.GroupLawCases := by
  have : Fact Config.P.Prime := ⟨prime_P⟩
  refine ⟨fun a p => ⟨pointAdd_inf_left a p, pointAdd_inf_right a p⟩,
    fun a x y1 y2 => pointAdd_of_y_ne a x, pointAdd_self_of_y_eq_zero, ?_,
    fun a p q => pointAdd_comm a⟩
  intro a x1 y1 x2 y2 h1 h2 h
  obtain ⟨sl, x3, y3, hadd, ⟨hx3, hy3⟩, hsl, ex, ey⟩ := HasThirdPoint.exists_sum h1 h2 h a
  refine ⟨sl, x3, y3, hadd, hx3, hy3, ?_, ?_, ?_⟩
  · simp only [← ZMod.intCast_eq_intCast_iff]
    push_cast
    exact hsl
  · rw [← ZMod.intCast_eq_intCast_iff]
    push_cast
    exact ex
  · rw [← ZMod.intCast_eq_intCast_iff]
    push_cast
    exact ey

/-! ### The points of a curve -/

/-- The point is in range and on the curve y² = x³ + a·x + b (R79, R80). -/
def OnCurveInRange (a b : Nat) (q : Point) : Prop := q.InRange ∧ onCurve a b q = true

theorem onCurveInRange_inf (a b : Nat) : OnCurveInRange a b .inf := ⟨trivial, rfl⟩

section
variable {a b : Nat}

/-- The law is closed on the points of a curve (R85). -/
theorem OnCurveInRange.pointAdd {p q : Point} (hp : OnCurveInRange a b p)
    (hq : OnCurveInRange a b q) : OnCurveInRange a b (pointAdd a p q) := by
  have : Fact Config.P.Prime := ⟨prime_P⟩
  cases p with
  | inf => rwa [pointAdd_inf_left]
  | affine x1 y1 =>
    cases q with
    | inf => rwa [pointAdd_inf_right]
    | affine x2 y2 =>
      by_cases h : HasThirdPoint x1 y1 x2 y2
      · obtain ⟨sl, x3, y3, hadd, h3, hsl, ex, ey⟩ := h.exists_sum hp.1 hq.1 a
        have e := WeierstrassCurve.Affine.equation_add ((onCurve_affine_iff_equation ..).1 hp.2)
          ((onCurve_affine_iff_equation ..).1 hq.2) (h.not_vertical hp.1 hq.1 a b)
        rw [← h.eq_slope hp.1 hq.1 hsl b, addX_weierstrass, addY_weierstrass, ← ex, ← ey] at e
        rw [hadd]
        exact ⟨h3, (onCurve_affine_iff_equation ..).2 e⟩
      · rw [pointAdd_of_not_hasThirdPoint a h]
        exact onCurveInRange_inf a b

theorem OnCurveInRange.pointNeg {q : Point} (hq : OnCurveInRange a b q) :
    OnCurveInRange a b (pointNeg q) := by
  refine ⟨pointNeg_inRange hq.1, ?_⟩
  cases q with
  | inf => rfl
  | affine x y =>
    have hneg : ((intMod ((Config.P : Int) - y) Config.P : Nat) : ZMod Config.P) =
        (weierstrass a b).negY x y := by
      rw [cast_intMod]; simp
    rw [Machine.pointNeg, onCurve_affine_iff_equation, hneg,
      WeierstrassCurve.Affine.equation_neg]
    exact (onCurve_affine_iff_equation ..).1 hq.2

theorem OnCurveInRange.scalarLoop {current result : Point} (hc : OnCurveInRange a b current)
    (hr : OnCurveInRange a b result) (fuel k : Nat) :
    OnCurveInRange a b (scalarLoop a fuel k current result) := by
  induction fuel generalizing k current result with
  | zero => exact hr
  | succ fuel ih =>
    rw [Machine.scalarLoop]
    split
    · exact hr
    · refine ih (hc.pointAdd hc) ?_ _
      split
      · exact hr.pointAdd hc
      · exact hr

/-- Every multiple of a point of the curve is a point of the curve (R85, R90). -/
theorem OnCurveInRange.scalarMul {q : Point} (hq : OnCurveInRange a b q) (k : Nat) :
    OnCurveInRange a b (scalarMul a k q) :=
  hq.scalarLoop (onCurveInRange_inf a b) _ k

end

end Sys2Proof.Machine
end

section
/-! PROOFS. The point commands: their checks, the point they write or the error they raise, and that
what they write is a point of the curve (42_point.md R79, R80, R84 to R89; R98). -/

namespace Sys2Proof.Machine

/-! ### The checks of source points -/

section
variable {s : State} {p q : Point}

theorem State.checkCurve_error (h : onCurve s.curveA.toNat s.curveB.toNat q = false) :
    s.checkCurve q = .error .notOnCurve := by
  simp [State.checkCurve, h]

theorem State.checkSources_outOfRange
    (h : ¬ CoefficientsInRange s ∨ ¬ p.InRange ∨ ¬ q.InRange) :
    s.checkSources p q = .error .outOfRange := by
  rw [checkSources]
  by_cases hc : CoefficientsInRange s
  · rw [checkCoefficients_ok hc]
    by_cases hp : p.InRange
    · have hq : ¬ q.InRange := (h.resolve_left (not_not.2 hc)).resolve_left (not_not.2 hp)
      rw [checkPoint_ok hp, checkPoint_error hq]; rfl
    · rw [checkPoint_error hp]; rfl
  · rw [checkCoefficients_error hc]; rfl

theorem State.checkSources_notOnCurve (hc : CoefficientsInRange s) (hp : p.InRange)
    (hq : q.InRange) (h : onCurve s.curveA.toNat s.curveB.toNat p = false ∨
      onCurve s.curveA.toNat s.curveB.toNat q = false) :
    s.checkSources p q = .error .notOnCurve := by
  rw [checkSources, checkCoefficients_ok hc, checkPoint_ok hp, checkPoint_ok hq]
  by_cases hop : onCurve s.curveA.toNat s.curveB.toNat p = true
  · rw [checkCurve_ok hop, checkCurve_error (h.resolve_left (by simp [hop]))]; rfl
  · rw [checkCurve_error (Bool.not_eq_true _ ▸ hop)]; rfl

/-- Everything the checks of source points can do, in the order of R98. -/
theorem State.checkSources_cases (s : State) (p q : Point) :
    (OnCurveInRange s.curveA.toNat s.curveB.toNat p ∧
      OnCurveInRange s.curveA.toNat s.curveB.toNat q ∧ s.checkSources p q = .ok ()) ∨
    s.checkSources p q = .error .outOfRange ∨ s.checkSources p q = .error .notOnCurve := by
  by_cases hr : CoefficientsInRange s ∧ p.InRange ∧ q.InRange
  · obtain ⟨hc, hp, hq⟩ := hr
    by_cases ho : onCurve s.curveA.toNat s.curveB.toNat p = true ∧
        onCurve s.curveA.toNat s.curveB.toNat q = true
    · exact .inl ⟨⟨hp, ho.1⟩, ⟨hq, ho.2⟩, checkSources_ok hc ⟨hp, ho.1⟩ ⟨hq, ho.2⟩⟩
    · refine .inr (.inr (checkSources_notOnCurve hc hp hq ?_))
      simpa only [not_and_or, Bool.not_eq_true] using ho
  · refine .inr (.inl (checkSources_outOfRange ?_))
    simpa only [not_and_or] using hr

/-- To check one source point is to check it twice: each check is made again after it passed. -/
theorem State.checkSources_self (s : State) (q : Point) : s.checkSources q q = s.checkSource q := by
  rw [checkSources, checkSource]
  cases s.checkCoefficients with
  | error e => rfl
  | ok _ =>
    cases checkPoint q with
    | error e => rfl
    | ok _ => cases s.checkCurve q <;> rfl

theorem State.checkSource_outOfRange (h : ¬ CoefficientsInRange s ∨ ¬ q.InRange) :
    s.checkSource q = .error .outOfRange := by
  rw [← checkSources_self, checkSources_outOfRange (h.imp_right .inl)]

theorem State.checkSource_notOnCurve (hc : CoefficientsInRange s) (hq : q.InRange)
    (h : onCurve s.curveA.toNat s.curveB.toNat q = false) :
    s.checkSource q = .error .notOnCurve := by
  rw [← checkSources_self, checkSources_notOnCurve hc hq hq (.inl h)]

theorem State.checkSources_eq_ok (h : s.checkSources p q = .ok ()) :
    OnCurveInRange s.curveA.toNat s.curveB.toNat p ∧
      OnCurveInRange s.curveA.toNat s.curveB.toNat q := by
  obtain ⟨hp, hq, -⟩ | h' | h' := s.checkSources_cases p q
  · exact ⟨hp, hq⟩
  · cases h.symm.trans h'
  · cases h.symm.trans h'

theorem State.checkSource_eq_ok (h : s.checkSource q = .ok ()) :
    OnCurveInRange s.curveA.toNat s.curveB.toNat q := by
  rw [← checkSources_self] at h
  exact (checkSources_eq_ok h).1

end

/-! ### How a command with checked source points completes -/

theorem writesPoint_of_resultOf {i : Instr} {s : State} {pd : Reg} {q : Point}
    (h : resultOf i s = writePoint pd q) (hq : q.InRange) : WritesPoint (pointField pd) q i s :=
  ⟨_, (exec_eq_complete_resultOf i s).trans (h ▸ rfl), s.complete_point _ hq⟩

section
variable {i : Instr} {s : State} {q : Point} {c : CommandResult}
  (hi : resultOf i s = s.checkSource q >>= fun _ => c)
include hi

theorem resultOf_of_validSource (hc : CoefficientsInRange s) (hq : ValidSource s q) :
    resultOf i s = c := by
  rw [hi, State.checkSource_ok hc hq]; rfl

/-- A command that checks one source point first has the errors of the check (R98). -/
theorem sourceErrors_of_resultOf : SourceErrors q i s :=
  ⟨fun h => failsWith_of_resultOf (by rw [hi, State.checkSource_outOfRange h]; rfl),
    fun hc hq ho =>
      failsWith_of_resultOf (by rw [hi, State.checkSource_notOnCurve hc hq ho]; rfl)⟩

end

/-! ### The four commands -/

/-- Settles O18: the checks of both sources pass or raise the error of R98's order. -/
theorem paddAddsPoints : Obligations.PaddAddsPoints := by
  intro pd ps1 ps2 s
  refine ⟨rfl, fun hc hp hq => ?_, fun h => failsWith_of_resultOf ?_,
    fun hc hp hq h => failsWith_of_resultOf ?_⟩
  · refine writesPoint_of_resultOf ?_ (pointAdd_inRange _ hp.inRange hq.inRange)
    rw [resultOf, State.paddResult, State.checkSources_ok hc hp hq]; rfl
  · rw [resultOf, State.paddResult, State.checkSources_outOfRange h]; rfl
  · rw [resultOf, State.paddResult, State.checkSources_notOnCurve hc hp hq h]; rfl

/-- Two is one doubling, added to INF (R90). -/
theorem scalarMul_two (a : Nat) (q : Point) : scalarMul a 2 q = pointAdd a q q := by
  have h : Nat.log2 2 = 1 := by decide
  simp [scalarMul, h, scalarLoop]

/-- Settles O19: the sum of the source with itself, which double-and-add computes for 2. -/
theorem pdblDoublesAPoint : Obligations.PdblDoublesAPoint := by
  intro pd ps1 s
  refine ⟨rfl, fun hc hp => ?_, sourceErrors_of_resultOf rfl, fun x hx => ?_,
    (scalarMul_two _ _).symm⟩
  · exact writesPoint_of_resultOf (resultOf_of_validSource rfl hc hp)
      (pointAdd_inRange _ hp.inRange hp.inRange)
  · rw [hx, pointAdd_self_of_y_eq_zero]

/-- The negated coordinate of R88, for a coordinate below P. -/
theorem pointNeg_affine (x : Nat) {y : Nat} (hy : y < Config.P) :
    pointNeg (.affine x y) = .affine x ((Config.P - y) % Config.P) := by
  rw [pointNeg, ← Int.ofNat_sub hy.le, intMod_natCast]

/-- A point and its negative have the same x, and y = 0 if they are equal, since P is odd. -/
theorem pointAdd_pointNeg (a : Nat) {q : Point} (hq : q.InRange) :
    pointAdd a q (pointNeg q) = .inf := by
  cases q with
  | inf => rfl
  | affine x y =>
    have hy : y < Config.P := hq.2
    rw [pointNeg_affine x hy]
    refine pointAdd_of_not_hasThirdPoint a fun h => ?_
    obtain ⟨he, h0⟩ := h rfl
    rw [Nat.mod_eq_of_lt (by omega)] at he
    have := P_mod_two
    omega

/-- Settles O20: below P the model's negative is that of R88. -/
theorem pnegNegatesAPoint : Obligations.PnegNegatesAPoint := by
  intro pd ps1 s i p neg
  have hneg : p.InRange → pointNeg p = neg := by
    simp only [neg]
    cases p with
    | inf => exact fun _ => rfl
    | affine x y => exact fun h => pointNeg_affine x h.2
  refine ⟨rfl, fun hc hp => ?_, sourceErrors_of_resultOf rfl, fun hp => ?_⟩
  · exact writesPoint_of_resultOf
      ((resultOf_of_validSource rfl hc hp).trans (congrArg _ (hneg hp.inRange)))
      (hneg hp.inRange ▸ pointNeg_inRange hp.inRange)
  · rw [← hneg hp, pointAdd_pointNeg _ hp]

/-- Settles O21: a completion without writes changes neither register nor flag, and INF is valid on
every curve. -/
theorem pchkChecksAndWritesNothing : Obligations.PchkChecksAndWritesNothing := by
  intro ps1 s i p
  have hpass : CoefficientsInRange s → ValidSource s p → exec i s = .next (s.complete (.ok [])) :=
    fun hc hp => (exec_eq_complete_resultOf i s).trans
      (congrArg _ (congrArg _ (resultOf_of_validSource rfl hc hp)))
  refine ⟨rfl, fun hc hp => ?_, sourceErrors_of_resultOf rfl, fun hc hinf => ?_⟩
  · exact ⟨_, hpass hc hp, s.complete_succeeded [], rfl, rfl, rfl⟩
  · have hp : p = .inf := if_pos hinf
    exact ⟨_, hpass hc (hp ▸ ⟨trivial, rfl⟩), s.complete_succeeded []⟩

/-! ### The errors of point and scalar commands -/

/-- The computation raises no error but those listed. -/
def RaisesOnly {α : Type} (es : List ErrorCode) (x : Except ErrorCode α) : Prop :=
  ∀ e, x = .error e → e ∈ es

theorem RaisesOnly.ok {α : Type} (es : List ErrorCode) (a : α) : RaisesOnly es (.ok a) := nofun

theorem RaisesOnly.bind {α β : Type} {es : List ErrorCode} {x : Except ErrorCode α}
    {f : α → Except ErrorCode β} (hx : RaisesOnly es x) (hf : ∀ a, RaisesOnly es (f a)) :
    RaisesOnly es (x >>= f) := by
  cases x with
  | error e => rintro _ ⟨⟩; exact hx e rfl
  | ok a => exact hf a

theorem State.raisesOnly_checkSources (s : State) (p q : Point) :
    RaisesOnly [.outOfRange, .notOnCurve] (s.checkSources p q) := by
  obtain ⟨-, -, h⟩ | h | h := s.checkSources_cases p q <;> rw [h]
  · exact .ok _ _
  · rintro _ ⟨⟩; decide
  · rintro _ ⟨⟩; decide

theorem State.raisesOnly_checkSource (s : State) (q : Point) :
    RaisesOnly [.outOfRange, .notOnCurve] (s.checkSource q) :=
  s.checkSources_self q ▸ s.raisesOnly_checkSources q q

/-- A point or scalar command raises only the errors of its checks (R84, R95). -/
theorem raisesOnly_resultOf_pointCommand {i : Instr} (h : isFieldCommand i = false) (s : State) :
    RaisesOnly [.outOfRange, .notOnCurve] (resultOf i s) := by
  cases i with
  | padd => exact .bind (s.raisesOnly_checkSources _ _) fun _ => .ok _ _
  | pdbl | pneg | pchk | pmul | pmulG => exact .bind (s.raisesOnly_checkSource _) fun _ => .ok _ _
  | madd | msub | mmul | mont | mred | mpow | minv | mdiv | msqrt => cases h

/-- Settles O24: a success keeps CODE, and an error is one of the checks'. -/
theorem pointCommandsNeverDivideByZero : Obligations.PointCommandsNeverDivideByZero := by
  refine ⟨fun _ _ => sub_emod_P_ne_zero, fun _ => two_mul_mod_P_ne_zero, ?_⟩
  intro i s t hi he ht
  rw [exec_eq_complete_resultOf] at ht
  cases ht
  have hr := raisesOnly_resultOf_pointCommand hi s
  cases hc : resultOf i s with
  | ok ws => rw [State.complete_ok_code, or_comm]; exact em _
  | error e =>
    have hcode : ∀ e ∈ [ErrorCode.outOfRange, .notOnCurve],
        e.toCode ≠ ErrorCode.toCode .zeroDivisor := by decide
    rw [State.complete_error_code, he]
    exact .inl (hcode e (hr e hc))

/-! ### The points that commands write -/

theorem bind_eq_ok {α β : Type} {x : Except ErrorCode α} {f : α → Except ErrorCode β} {r : β}
    (h : x >>= f = .ok r) : ∃ a, x = .ok a ∧ f a = .ok r := by
  cases x with
  | error e => cases h
  | ok a => exact ⟨a, rfl, h⟩

/-- On a non-singular curve PMUL's point is the multiple (R91, R92). -/
theorem State.multiple_of_not_singular {s : State}
    (hs : singular s.curveA.toNat s.curveB.toNat = false) (k : Nat) (q : Point) :
    s.multiple k q = scalarMul s.curveA.toNat k q :=
  if_neg (by simp [hs])

/-- The one write of a command with a point destination that succeeds on a non-singular curve: a
point of that curve (R85). -/
theorem resultOf_eq_ok_point {i : Instr} {s : State} {k : PointReg} {ws : List Write}
    (hf : flagDestination i = some k) (hs : singular s.curveA.toNat s.curveB.toNat = false)
    (h : resultOf i s = .ok ws) :
    ∃ q, OnCurveInRange s.curveA.toNat s.curveB.toNat q ∧ ws = [.point k q] := by
  cases i with
  | padd =>
    cases hf
    obtain ⟨⟨⟩, hc, ⟨⟩⟩ := bind_eq_ok h
    obtain ⟨hp, hq⟩ := State.checkSources_eq_ok hc
    exact ⟨_, hp.pointAdd hq, rfl⟩
  | pdbl =>
    cases hf
    obtain ⟨⟨⟩, hc, ⟨⟩⟩ := bind_eq_ok h
    have hp := State.checkSource_eq_ok hc
    exact ⟨_, hp.pointAdd hp, rfl⟩
  | pneg =>
    cases hf
    obtain ⟨⟨⟩, hc, ⟨⟩⟩ := bind_eq_ok h
    exact ⟨_, (State.checkSource_eq_ok hc).pointNeg, rfl⟩
  | pmul | pmulG =>
    cases hf
    obtain ⟨⟨⟩, hc, ⟨⟩⟩ := bind_eq_ok h
    exact ⟨_, (State.checkSource_eq_ok hc).scalarMul _, by rw [State.multiple_of_not_singular hs]⟩
  | pchk | madd | msub | mmul | mont | mred | mpow | minv | mdiv | msqrt => cases hf

/-- Settles O26: the law is closed, so what a successful command writes is on the curve, and the
destination reads back as written. -/
theorem pointAddStaysOnTheCurve : Obligations.PointAddStaysOnTheCurve := by
  refine ⟨fun a b p q _ _ _ hp hq hop hoq => OnCurveInRange.pointAdd ⟨hp, hop⟩ ⟨hq, hoq⟩, ?_⟩
  intro i s t k hf hs _ ht herr
  rw [exec_eq_complete_resultOf] at ht
  cases ht
  cases hc : resultOf i s with
  | error e => rw [hc] at herr; cases herr
  | ok ws =>
    obtain ⟨q, hq, rfl⟩ := resultOf_eq_ok_point hf hs hc
    have hpt : (s.complete (.ok [.point k q])).pt k = q := s.pt_ptWrite k hq.1
    rw [hpt]
    refine ⟨hq.1, ?_⟩
    rw [State.complete_curveA, State.complete_curveB]
    exact hq.2

end Sys2Proof.Machine
end

section
/-! PROOFS. PMUL and ScalarMul (43_scalar_mul.md R90 to R92): the point both forms write or the error
they raise, the loop of R90, and the multiples of a point as those of Mathlib's group of points. -/

namespace Sys2Proof.Machine

/-! ### The command -/

/-- PMUL writes its point when the source passes the checks, on every curve (R91, R92). -/
theorem writesPoint_multiple {i : Instr} {s : State} {rn : Bool} {pd rk : Reg} {q : Point}
    (hi : resultOf i s = s.pmulResult rn pd q rk) (hc : CoefficientsInRange s)
    (hq : ValidSource s q) (hm : (s.multiple (s.scalarOf rn rk) q).InRange) :
    WritesPoint (pointField pd) (s.multiple (s.scalarOf rn rk) q) i s :=
  writesPoint_of_resultOf (resultOf_of_validSource hi hc hq) hm

/-- On a singular curve PMUL's point is the drawn one (R92). -/
theorem State.multiple_of_singular {s : State}
    (hs : singular s.curveA.toNat s.curveB.toNat = true) (k : Nat) (q : Point) :
    s.multiple k q = drawnPoint s.draws :=
  if_pos hs

/-- What both forms of PMUL do on a non-singular curve, and their errors (R91). -/
theorem multipliesPoint_of_resultOf {i : Instr} {s : State} {rn : Bool} {pd rk : Reg} {q : Point}
    (hi : resultOf i s = s.pmulResult rn pd q rk) :
    MultipliesPoint (pointField pd) q (s.scalarOf rn rk) i s := by
  refine ⟨fun hc hq hs => ?_, sourceErrors_of_resultOf hi⟩
  rw [← State.multiple_of_not_singular hs]
  exact writesPoint_multiple hi hc hq
    (State.multiple_of_not_singular hs _ q ▸ scalarMul_inRange _ _ hq.inRange)

/-- Settles O22: both forms are PMUL's result for their source point. -/
theorem pmulMultipliesAPoint : Obligations.PmulMultipliesAPoint := fun _ _ _ _ _ =>
  ⟨rfl, rfl, multipliesPoint_of_resultOf rfl, multipliesPoint_of_resultOf rfl⟩

/-- What both forms of PMUL do on a singular curve (R92). -/
theorem writesPoint_drawnPoint {i : Instr} {s : State} {rn : Bool} {pd rk : Reg} {q : Point}
    (hi : resultOf i s = s.pmulResult rn pd q rk) (hc : CoefficientsInRange s)
    (hs : singular s.curveA.toNat s.curveB.toNat = true) (hq : ValidSource s q) :
    WritesPoint (pointField pd) (drawnPoint s.draws) i s := by
  rw [← State.multiple_of_singular hs (s.scalarOf rn rk) q]
  exact writesPoint_multiple hi hc hq
    (State.multiple_of_singular hs _ q ▸ drawnPoint_inRange s.draws)

/-- Settles O23: whatever point is drawn, it is in range. -/
theorem singularCurvePmulCompletes : Obligations.SingularCurvePmulCompletes :=
  fun _ _ _ _ s hc hs =>
    ⟨fun hq => ⟨_, drawnPoint_inRange s.draws, writesPoint_drawnPoint rfl hc hs hq⟩,
      fun hq => ⟨_, drawnPoint_inRange s.draws, writesPoint_drawnPoint rfl hc hs hq⟩⟩

/-! ### The loop -/

/-- The loop of R90 with as much fuel as the scalar has bits. -/
def scalarRun (a k : Nat) (current result : Point) : Point :=
  scalarLoop a (k.log2 + 1) k current result

theorem scalarMul_eq_scalarRun (a k : Nat) (q : Point) : scalarMul a k q = scalarRun a k q .inf :=
  rfl

@[simp] theorem scalarLoop_zero (a fuel : Nat) (current result : Point) :
    scalarLoop a fuel 0 current result = result := by
  cases fuel <;> simp [scalarLoop]

@[simp] theorem scalarRun_zero (a : Nat) (current result : Point) :
    scalarRun a 0 current result = result :=
  scalarLoop_zero ..

/-- One turn of the loop: halving the scalar takes one bit of fuel, or leaves the scalar 0. -/
theorem scalarRun_of_pos (a : Nat) {k : Nat} (hk : 0 < k) (current result : Point) :
    scalarRun a k current result =
      scalarRun a (k / 2) (pointAdd a current current)
        (if k % 2 = 1 then pointAdd a result current else result) := by
  rw [scalarRun, scalarLoop, if_neg hk.ne', Nat.log2_def]
  split
  · rfl
  · have hhalf : k / 2 = 0 := by omega
    rw [hhalf, scalarLoop_zero, scalarRun_zero]

/-- The loop on the identity stays at the identity. -/
theorem scalarRun_inf (a k : Nat) : scalarRun a k .inf .inf = .inf := by
  induction k using Nat.strong_induction_on with
  | _ k ih =>
    obtain rfl | hk := k.eq_zero_or_pos
    · rw [scalarRun_zero]
    · rw [scalarRun_of_pos a hk, pointAdd_inf_left, ite_self]
      exact ih _ (Nat.div_lt_self hk one_lt_two)

/-- Settles O27: the loop with fuel for every bit is R90's. -/
theorem scalarMulIsDoubleAndAdd : Obligations.ScalarMulIsDoubleAndAdd := fun a =>
  ⟨scalarRun a, scalarRun_zero a, fun _ current result hk => scalarRun_of_pos a hk current result,
    scalarMul_eq_scalarRun a, fun q => scalarRun_zero a q .inf, scalarRun_inf a⟩

/-! ### The group of points -/

/-- A point of Mathlib's group as the model writes points: its coordinates as residues. -/
def pointOf {a b : Nat} : (weierstrass a b).Point → Point
  | .zero => .inf
  | .some x y _ => .affine x.val y.val

theorem pointOf_some {a b : Nat} {x y : ZMod Config.P} (h : (weierstrass a b).Nonsingular x y) :
    pointOf (.some x y h) = .affine x.val y.val := rfl

section
variable [Fact Config.P.Prime] {a b : Nat}

theorem pointOf_injective : Function.Injective (pointOf (a := a) (b := b)) := by
  intro p q h
  cases p with
  | zero =>
    cases q with
    | zero => rfl
    | some => cases h
  | some x1 y1 h1 =>
    cases q with
    | zero => cases h
    | some x2 y2 h2 =>
      obtain ⟨hx, hy⟩ := Point.affine.inj h
      obtain rfl := ZMod.val_injective _ hx
      obtain rfl := ZMod.val_injective _ hy
      rfl

theorem pointOf_inRange (p : (weierstrass a b).Point) : (pointOf p).InRange := by
  cases p with
  | zero => trivial
  | some x y h => exact ⟨x.val_lt, y.val_lt⟩

/-- A curve that R92 does not call singular has a discriminant other than 0, since P is odd. -/
theorem weierstrass_Δ_ne_zero (h : singular a b = false) : (weierstrass a b).Δ ≠ 0 := by
  have h2 : (2 : ZMod Config.P) ≠ 0 := by
    simpa using cast_two_mul_ne_zero prime_P.one_lt one_ne_zero
  have hs : (4 * a ^ 3 + 27 * b ^ 2 : ZMod Config.P) ≠ 0 := by
    intro h0
    have hd : Config.P ∣ 4 * a ^ 3 + 27 * b ^ 2 := by
      rw [← ZMod.natCast_eq_zero_iff]
      exact_mod_cast h0
    simp [singular, Nat.mod_eq_zero_of_dvd hd] at h
  have hΔ : (weierstrass a b).Δ = -(2 ^ 4 * (4 * a ^ 3 + 27 * b ^ 2)) := by
    simp only [WeierstrassCurve.Δ, WeierstrassCurve.b₂, WeierstrassCurve.b₄, WeierstrassCurve.b₆,
      WeierstrassCurve.b₈, weierstrass_a₁, weierstrass_a₂, weierstrass_a₃, weierstrass_a₄,
      weierstrass_a₆]
    ring
  rw [hΔ]
  exact neg_ne_zero.2 (mul_ne_zero (pow_ne_zero 4 h2) hs)

/-- Every point of a non-singular curve is one of the group's. -/
theorem OnCurveInRange.exists_pointOf (h : singular a b = false) {q : Point}
    (hq : OnCurveInRange a b q) : ∃ p : (weierstrass a b).Point, pointOf p = q := by
  cases q with
  | inf => exact ⟨0, rfl⟩
  | affine x y =>
    obtain ⟨⟨hx, hy⟩, ho⟩ := hq
    have hn := ((weierstrass a b).equation_iff_nonsingular_of_Δ_ne_zero
      (weierstrass_Δ_ne_zero h)).1 ((onCurve_affine_iff_equation ..).1 ho)
    exact ⟨.some _ _ hn, by rw [pointOf_some, ZMod.val_cast_of_lt hx, ZMod.val_cast_of_lt hy]⟩

/-- Points of the curve that have no third point lie on a vertical line. -/
theorem vertical_of_not_hasThirdPoint {x1 y1 x2 y2 : ZMod Config.P}
    (h1 : (weierstrass a b).Equation x1 y1) (h2 : (weierstrass a b).Equation x2 y2)
    (h : ¬ HasThirdPoint x1.val y1.val x2.val y2.val) :
    x1 = x2 ∧ y1 = (weierstrass a b).negY x2 y2 := by
  obtain ⟨hx, hy⟩ : x1.val = x2.val ∧ (y1.val = y2.val → y1.val = 0) := by
    simpa [HasThirdPoint] using h
  have hx' : x1 = x2 := ZMod.val_injective _ hx
  refine ⟨hx', ?_⟩
  obtain rfl | hneg := WeierstrassCurve.Affine.Y_eq_of_X_eq h1 h2 hx'
  · rw [negY_weierstrass, (ZMod.val_eq_zero y1).1 (hy rfl), neg_zero]
  · exact hneg

/-- The group's sum is `PointAdd` (R83), by a third point or by a vertical line. -/
theorem pointOf_add (p q : (weierstrass a b).Point) :
    pointOf (p + q) = pointAdd a (pointOf p) (pointOf q) := by
  cases p with
  | zero => exact congrArg pointOf (zero_add q)
  | some x1 y1 h1 =>
    cases q with
    | zero => exact congrArg pointOf (add_zero _)
    | some x2 y2 h2 =>
      have r1 := pointOf_inRange (.some x1 y1 h1)
      have r2 := pointOf_inRange (.some x2 y2 h2)
      rw [pointOf_some] at r1 r2 ⊢
      by_cases h : HasThirdPoint x1.val y1.val x2.val y2.val
      · obtain ⟨sl, x3, y3, hadd, r3, hsl, ex, ey⟩ := h.exists_sum r1 r2 a
        have hv := h.not_vertical r1 r2 a b
        have es := h.eq_slope r1 r2 hsl b
        simp only [ZMod.natCast_zmod_val] at hv es ex ey
        rw [pointOf_some, hadd, WeierstrassCurve.Affine.Point.add_some hv, pointOf_some, ← es,
          addX_weierstrass, addY_weierstrass, ← ex, ← ey, ZMod.val_cast_of_lt r3.1,
          ZMod.val_cast_of_lt r3.2]
      · obtain ⟨hx, hy⟩ := vertical_of_not_hasThirdPoint h1.1 h2.1 h
        rw [pointOf_some, pointAdd_of_not_hasThirdPoint a h,
          WeierstrassCurve.Affine.Point.add_of_Y_eq hx hy]
        rfl

/-- The group's negative is that of R88. -/
theorem pointOf_neg (p : (weierstrass a b).Point) : pointOf (-p) = pointNeg (pointOf p) := by
  cases p with
  | zero => rfl
  | some x y h =>
    rw [WeierstrassCurve.Affine.Point.neg_some, pointOf_some, pointOf_some, pointNeg]
    congr 1
    refine eq_of_cast_eq (ZMod.val_lt _) (intMod_lt P_pos _) ?_
    rw [ZMod.natCast_zmod_val, negY_weierstrass, cast_intMod]
    simp

/-- The loop of R90 adds the multiple of the current point to the result. -/
theorem scalarRun_pointOf (k : Nat) (current result : (weierstrass a b).Point) :
    scalarRun a k (pointOf current) (pointOf result) = pointOf (result + k • current) := by
  induction k using Nat.strong_induction_on generalizing current result with
  | _ k ih =>
    obtain rfl | hk := k.eq_zero_or_pos
    · rw [scalarRun_zero, zero_nsmul, add_zero]
    · have hhalf : k / 2 < k := Nat.div_lt_self hk one_lt_two
      have hdouble : k • current = (k % 2) • current + (k / 2) • (current + current) := by
        rw [← two_nsmul, ← mul_nsmul', ← add_nsmul, mul_comm, Nat.mod_add_div]
      rw [scalarRun_of_pos a hk, ← pointOf_add, ← pointOf_add, ← apply_ite pointOf, ih _ hhalf,
        hdouble, ← add_assoc]
      obtain hbit | hbit := Nat.mod_two_eq_zero_or_one k <;> simp [hbit]

/-- `ScalarMul` is the multiple of the group. -/
theorem scalarMul_pointOf (k : Nat) (p : (weierstrass a b).Point) :
    scalarMul a k (pointOf p) = pointOf (k • p) :=
  (scalarRun_pointOf k p 0).trans (congrArg pointOf (zero_add _))

end

/-- Settles O28: the multiples are those of a group. -/
theorem scalarMulAddsScalars : Obligations.ScalarMulAddsScalars := by
  intro a b q _ _ hs hq ho j k
  have : Fact Config.P.Prime := ⟨prime_P⟩
  obtain ⟨p, rfl⟩ := OnCurveInRange.exists_pointOf hs ⟨hq, ho⟩
  rw [scalarMul_pointOf, scalarMul_pointOf, scalarMul_pointOf, add_nsmul, pointOf_add]

/-! ### The generator -/

theorem singular_secp256k1 : singular 0 7 = false := by decide +kernel

theorem pointNeg_generator : pointNeg generator = .affine Config.Gx (Config.P - Config.Gy) := by
  decide +kernel

/-- The generator is an element of the group, of an order that divides N (R21). -/
theorem exists_pointOf_generator [Fact Config.P.Prime] :
    ∃ g : (weierstrass 0 7).Point, pointOf g = generator ∧ Config.N • g = 0 := by
  obtain ⟨g, hg⟩ :=
    OnCurveInRange.exists_pointOf singular_secp256k1 ⟨generator_inRange, generator_onCurve⟩
  refine ⟨g, hg, pointOf_injective ?_⟩
  rw [← scalarMul_pointOf, hg]
  exact scalarMul_N_generator

/-- Settles O30: in the group, N · G is 0. -/
theorem rnChangesNothingForTheGenerator : Obligations.RnChangesNothingForTheGenerator := by
  have : Fact Config.P.Prime := ⟨prime_P⟩
  obtain ⟨g, hg, hN⟩ := exists_pointOf_generator
  change (∀ k, scalarMul 0 (k % Config.N) generator = scalarMul 0 k generator) ∧
    scalarMul 0 (Config.N + 1) generator = generator ∧ scalarMul 0 (Config.N - 1) generator = _
  rw [← pointNeg_generator, ← hg, ← pointOf_neg]
  refine ⟨fun k => ?_, ?_, ?_⟩
  · rw [scalarMul_pointOf, scalarMul_pointOf, ← mod_addOrderOf_nsmul,
      Nat.mod_mod_of_dvd _ (addOrderOf_dvd_of_nsmul_eq_zero hN), mod_addOrderOf_nsmul]
  · rw [scalarMul_pointOf, add_nsmul, hN, zero_add, one_nsmul]
  · have hpos : 0 < Config.N := prime_N.pos
    rw [scalarMul_pointOf]
    refine congrArg pointOf (eq_neg_of_add_eq_zero_left ?_)
    rw [← succ_nsmul, Nat.sub_add_cancel hpos, hN]

end Sys2Proof.Machine
end

section
/-! PROOFS. Errors, the interrupt line and the rights an access carries: which errors a command
raises, what is kept of the first one, when IRQ rises and falls, and that no access is served
otherwise for the privilege or security it carries (60_exceptions.md R95, R97, R99, R100, R105). -/

namespace Sys2Proof.Machine

/-! ### The errors of each command -/

theorem State.raisesOnly_element (s : State) (m : Modulus) (i : Reg) (es : List ErrorCode) :
    RaisesOnly (.outOfRange :: es) (s.element m i) := by
  unfold State.element
  split
  · rintro _ ⟨⟩; exact List.mem_cons_self
  · exact .ok _ _

theorem raisesOnly_checkDivisor (v : Nat) :
    RaisesOnly [.outOfRange, .zeroDivisor] (checkDivisor v) := by
  unfold checkDivisor
  split
  · rintro _ ⟨⟩; decide
  · exact .ok _ _

/-- A command raises only the errors R95 lists for it. -/
theorem raisesOnly_resultOf (i : Instr) (s : State) : RaisesOnly (raisable i) (resultOf i s) := by
  have elem := s.raisesOnly_element
  have div := raisesOnly_checkDivisor
  cases i with
  | mred => exact .ok _ _
  | madd | msub | mmul | mont =>
    exact .bind (elem _ _ []) fun _ => .bind (elem _ _ []) fun _ => .ok _ _
  | mpow | msqrt => exact .bind (elem _ _ []) fun _ => .ok _ _
  | minv => exact .bind (elem _ _ [_]) fun _ => .bind (div _) fun _ => .ok _ _
  | mdiv =>
    exact .bind (elem _ _ [_]) fun _ => .bind (elem _ _ [_]) fun _ => .bind (div _) fun _ => .ok _ _
  | padd | pdbl | pneg | pchk | pmul | pmulG => exact raisesOnly_resultOf_pointCommand rfl s

/-- Settles O33: the completion is a success or takes the error of the result. -/
theorem commandsRaiseOnlyTheirErrors : Obligations.CommandsRaiseOnlyTheirErrors := by
  intro i s
  refine ⟨_, exec_eq_complete_resultOf i s, ?_⟩
  have hr := raisesOnly_resultOf i s
  cases hc : resultOf i s with
  | ok ws => exact .inl (s.complete_succeeded ws)
  | error e => exact .inr ⟨e, hr e hc, s.complete_failed e⟩

/-! ### ERR and CODE -/

/-- A completion with ERR = 1 before keeps ERR and CODE (R99). -/
theorem State.complete_keeps_firstError {s : State} (he : s.err = true) (c : CommandResult) :
    (s.complete c).err = true ∧ (s.complete c).code = s.code := by
  refine ⟨State.err_complete he c, ?_⟩
  cases c with
  | ok ws => simp
  | error e => simp [he]

theorem not_lockedOffset_status : ¬ LockedOffset 0x008 := by
  unfold LockedOffset
  decide

/-- What a presented write of STATUS leaves in DONE, ERR and CODE (R25). -/
theorem Presented.step_writeStatus {s : State} {a : Access} {rest : List Input}
    (h : Presented s a 0x008 rest) (hal : a.Aligned32 0x008) {v : Word} (hk : a.kind = .write v) :
    ∃ t, step s = .next t ∧ t.done = (s.done && !v.getLsbD 1) ∧
      t.err = (s.err && !v.getLsbD 2) ∧ t.code = if v.getLsbD 2 then 0 else s.code := by
  have hserved := (writesChangeTheRegistersAsMapped s a _ v rest h hk).2 hal
  obtain ⟨t, ht, -, -, -, -, -, hstatus, -⟩ := hserved fun hb => not_lockedOffset_status hb.2
  obtain ⟨hdone, herr, hcode, -⟩ := hstatus rfl
  exact ⟨t, ht, hdone, herr, hcode⟩

/-- Settles O31: results read neither ERR nor CODE, so a success writes the same and a failure
nothing. -/
theorem errIsStickyAndFirstCodeIsKept : Obligations.ErrIsStickyAndFirstCodeIsKept := by
  refine ⟨fun i s t he ht => ?_, fun i s t err code ht => ?_, fun s a v rest h hal hk hv => ?_,
    fun t h => ⟨h.err, h.code⟩⟩
  · rw [exec_eq_complete_resultOf] at ht
    cases ht
    exact State.complete_keeps_firstError he _
  · obtain ⟨u, t', hu, ht', hr, hpinf, hcases⟩ :=
      commandsIgnoreStatus i s { s with err := err, code := code } rfl rfl rfl rfl fun _ => rfl
    cases hu.symm.trans ht
    refine ⟨t', ht', hr, hpinf, ?_⟩
    obtain ⟨-, -, hqr⟩ | ⟨e, hf, hf'⟩ := hcases
    · exact hqr rfl
    · exact hf'.qr.trans hf.qr.symm
  · obtain ⟨t, ht, -, herr, hcode⟩ := h.step_writeStatus hal hk
    exact ⟨t, ht, by simp [herr, hv], by simp [hcode, hv]⟩

/-! ### The interrupt line -/

theorem State.irq_eq_true_iff (s : State) : s.irq = true ↔
    (s.done = true ∧ s.doneIE = true) ∨ (s.err = true ∧ s.errIE = true) := by
  simp [State.irq]

theorem State.irq_of_done {s : State} (h : s.done = true) :
    s.irq = (s.doneIE || (s.err && s.errIE)) := by
  simp [State.irq, h]

theorem State.irq_of_not_done {s : State} (h : s.done = false) : s.irq = (s.err && s.errIE) := by
  simp [State.irq, h]

theorem State.irq_of_no_flag {s : State} (hd : s.done = false) (he : s.err = false) :
    s.irq = false := by
  simp [State.irq_of_not_done hd, he]

/-- On the engine's turn the step completes the pending word (R59). -/
theorem step_completed_of_engine {s t : State} (hturn : s.turn = .engine)
    (ht : step s = .next t) : Completed s t := by
  obtain ⟨-, -, -, c, -, e⟩ | ⟨hhost, -⟩ := step_cases s
  · cases e.symm.trans ht
    exact s.complete_completed c
  · cases hturn.symm.trans hhost

/-- Settles O37: in each case by what the step leaves in DONE and ERR. -/
theorem irqFollowsTheEnabledFlags : Obligations.IrqFollowsTheEnabledFlags := by
  refine ⟨State.irq_eq_true_iff, fun s t hturn ht => ?completion,
    fun s t a v rest h hal hk hv1 hv2 ht => ?acknowledge,
    fun s t a v rest h hal hk hb ht => ?issue, fun t h => State.irq_of_no_flag h.done h.err⟩
  case completion =>
    have hc := step_completed_of_engine hturn ht
    rw [State.irq_of_done hc.done, hc.doneIE, hc.errIE]
  case acknowledge =>
    obtain ⟨u, hu, hdone, herr, -⟩ := h.step_writeStatus hal hk
    cases hu.symm.trans ht
    exact State.irq_of_no_flag (by simp [hdone, hv1]) (by simp [herr, hv2])
  case issue =>
    obtain ⟨u, hu, -, -, -, -, -, hdone, -, herr, -, -, -, herrIE, -⟩ :=
      issueStoresTheWordAndSetsBusy s a v rest h hal hk hb
    cases hu.symm.trans ht
    rw [State.irq_of_not_done hdone, herr, herrIE]

/-! ### The privilege and security of an access -/

theorem step_of_host {s : State} (h : s.turn = .host) : step s = .next s.hostTurn := by
  simp only [step, h]

/-- What passes on a turn of the host side does not depend on what waits on the bus. -/
theorem State.pass_withInputs (s : State) (inputs : List Input) :
    ({ s with inputs := inputs }).pass = { s.pass with inputs := inputs } := by
  unfold State.pass
  split <;> rfl

theorem State.hostTurn_withInputs_cons (s : State) (i : Input) (rest : List Input) :
    ({ s with inputs := i :: rest }).hostTurn = ({ s.pass with inputs := rest }).receive i := by
  simp only [State.hostTurn, State.pass_withInputs]

/-- Serving an access reads its kind, address, size and lanes only (R105). -/
theorem State.receive_access_attr (s : State) (a : Access) (attr : Nat) :
    s.receive (.access { a with attr := attr }) = s.receive (.access a) := rfl

/-- Settles O48. -/
theorem attributesAreNotLookedAt : Obligations.AttributesAreNotLookedAt := by
  intro s a attr rest hturn
  have hhost (inputs : List Input) : ({ s with inputs := inputs }).turn = .host := hturn
  rw [step_of_host (hhost _), step_of_host (hhost _), State.hostTurn_withInputs_cons,
    State.hostTurn_withInputs_cons, State.receive_access_attr _ a attr]

end Sys2Proof.Machine
end

section
/-! PROOFS. Reset and rest: what the reset pin and the soft reset leave in the registers, what ends a
pending command, the point commands after reset, and the idle machine without inputs
(70_reset_and_hazards.md R108 to R110, R118). -/

namespace Sys2Proof.Machine

/-! ### Whose turn it is -/

theorem State.turn_of_held {s : State} (h : s.rstN = false) : s.turn = .host := by
  simp [State.turn, h]

theorem State.turn_of_idle {s : State} (h : s.busy = false) : s.turn = .host := by
  simp [State.turn, h]

/-! ### The reset pin -/

/-- With its registers at reset the MFE does not interrupt (R100, R108). -/
theorem AtReset.irq {s : State} (h : AtReset s) : s.irq = false :=
  State.irq_of_no_flag h.done h.err

/-- Asserting the pin resets every register, whether or not it was asserted before (R108). -/
theorem State.hostTurn_assert {s : State} {rest : List Input}
    (hi : s.inputs = .rstN false :: rest) :
    s.hostTurn = { ({ s.pass with inputs := rest }).resetRegisters with rstN := false } := by
  rw [State.hostTurn, hi]
  rfl

/-- An access drives no pin. -/
theorem State.serveAccess_rstN_of_held {s : State} (hr : s.rstN = false) (a : Access) :
    (s.serveAccess a).rstN = false := by
  rw [State.serveAccess]
  split
  · exact hr
  · rw [if_neg (by simp [hr])]; exact hr

/-- While reset is asserted, only the next input releases the pin (log entry 14). -/
theorem State.hostTurn_rstN_iff_of_held {s : State} (hr : s.rstN = false) :
    s.hostTurn.rstN = true ↔ ∃ rest, s.inputs = .rstN true :: rest := by
  have hp : s.pass.rstN = false := by simp [State.pass, hr]
  rw [State.hostTurn]
  cases s.inputs with
  | nil => simp [hp]
  | cons i rest =>
    cases i with
    | access a =>
      have ha := State.serveAccess_rstN_of_held (s := { s.pass with inputs := rest }) hp a
      simp [State.receive, ha]
    | rstN level => cases level <;> simp [State.receive, State.driveReset]

/-- Settles O49: an assertion resets the registers, and a turn under reset keeps them there. -/
theorem hardResetRestoresEveryRegister : Obligations.HardResetRestoresEveryRegister := by
  refine ⟨fun s rest hturn hi => ?assertion, fun s hr => ?hold⟩
  case assertion =>
    have e := State.hostTurn_assert hi
    have hreset : AtReset s.hostTurn := e ▸ .of_eq rfl
    exact ⟨_, step_of_host hturn, hreset, congrArg State.rstN e, congrArg State.inputs e,
      hreset.irq⟩
  case hold =>
    have hreset : AtReset s.hostTurn := .of_eq (State.hostTurn_held hr).symm
    exact ⟨_, step_of_host (State.turn_of_held hr), hreset, hreset.irq,
      State.hostTurn_rstN_iff_of_held hr⟩

/-! ### The soft reset -/

theorem not_lockedOffset_ctrl : ¬ LockedOffset 0x018 := by
  unfold LockedOffset
  decide

/-- Among the writes only CTRL with bit 0 ends a pending command (R110). -/
theorem State.busy_falls_writeSlot {s : State} {slot : Slot} {v : Word} (hb : s.busy = true)
    (h : (s.writeSlot slot v).busy = false) : slot = .ctrl ∧ v.getLsbD 0 = true := by
  obtain ⟨-, e⟩ | ⟨-, e⟩ | ⟨hs, hv, -⟩ | e := s.writeSlot_control slot v
  · rw [e] at h; cases h
  · rw [e, State.writeStatus_busy, hb] at h; cases h
  · exact ⟨hs, hv⟩
  · rw [e.busy, hb] at h; cases h

/-- Settles O50: the write of CTRL is served busy or idle, and of what the host side can do only it
and the reset pin clear BUSY. -/
theorem softResetRestoresEveryRegister : Obligations.SoftResetRestoresEveryRegister := by
  refine ⟨fun s a v rest h hal hk hv => ?served, fun s t hr hb ht hf => ?onlyAbort⟩
  case served =>
    refine ((writesChangeTheRegistersAsMapped s a _ v rest h hk).2 hal fun hl =>
      not_lockedOffset_ctrl hl.2).mono fun t ht => ?_
    obtain ⟨-, -, -, -, hctrl, -⟩ := ht
    have hreset : AtReset t := (if_pos hv).mp (hctrl rfl)
    exact ⟨hreset, State.turn_of_idle hreset.busy, hreset.irq⟩
  case onlyAbort =>
    obtain ⟨-, -, hw, -⟩ | ⟨hturn, e⟩ := step_cases s
    · exact .inl (s.turn_eq_engine_iff.2 ⟨hr, hb, hw⟩)
    · cases e.symm.trans ht
      obtain ⟨rest, reply, e⟩ | ⟨rest, hi, -⟩ |
        ⟨a, off, v, rest, hi, haddr, hoff, hk, hal, -, e⟩ := State.hostTurn_effect hr
      · rw [e] at hf
        cases hb.symm.trans hf
      · exact .inr (.inl ⟨rest, hi⟩)
      · rw [e] at hf
        obtain ⟨hslot, hv⟩ := State.busy_falls_writeSlot (s := s.beforeServing rest) hb hf
        obtain rfl := offset_of_slotAt_ctrl hslot
        exact .inr (.inr ⟨a, v, rest, ⟨hr, hturn, hi, haddr, hoff⟩, hal, hk, hv⟩)

/-! ### Point commands after reset -/

section
variable {s : State} (h : AtReset s)
include h

/-- After reset every point register is INF (R109). -/
theorem AtReset.pt_eq_inf (k : PointReg) : s.pt k = .inf := by
  have hflag : s.isInf k = true := by
    rw [State.isInf, h.pinf]
    revert k
    decide
  exact if_pos hflag

theorem AtReset.curveA_toNat : s.curveA.toNat = 0 := congrArg BitVec.toNat h.curveA

theorem AtReset.curveB_toNat : s.curveB.toNat = 7 := congrArg BitVec.toNat h.curveB

theorem AtReset.nat_eq_zero (i : Reg) : s.nat i = 0 := congrArg BitVec.toNat (h.r i)

theorem AtReset.coefficientsInRange : CoefficientsInRange s := by
  rw [CoefficientsInRange, h.curveA_toNat, h.curveB_toNat]
  decide +kernel

theorem AtReset.not_singular : singular s.curveA.toNat s.curveB.toNat = false := by
  rw [h.curveA_toNat, h.curveB_toNat, singular_secp256k1]

/-- INF passes the checks of a source point (R86). -/
theorem AtReset.validSource_pt (k : PointReg) : ValidSource s (s.pt k) := by
  rw [h.pt_eq_inf k]
  exact ⟨trivial, rfl⟩

/-- The generator is on the curve of the reset coefficients (R91). -/
theorem AtReset.validSource_generator : ValidSource s generator where
  inRange := generator_inRange
  onCurve := by rw [h.curveA_toNat, h.curveB_toNat, generator_onCurve]

end

theorem scalarMul_inf (a k : Nat) : scalarMul a k .inf = .inf := scalarRun_inf a k

theorem scalarMul_zero (a : Nat) (q : Point) : scalarMul a 0 q = .inf := scalarRun_zero a q .inf

/-- Settles O51: sums and multiples of INF are INF, and so is the multiple of G by a scalar register
that holds 0. -/
theorem resetPointsAreTheIdentity : Obligations.ResetPointsAreTheIdentity := by
  intro s h
  have hc := h.coefficientsInRange
  have hpt := h.pt_eq_inf
  refine ⟨hpt, fun pd ps1 ps2 => ?padd, fun pd ps1 => ?pdbl, fun rn pd ps1 rk => ?pmul,
    fun rn pd rk => ?pmulG⟩
  case padd =>
    obtain ⟨-, hsum, -⟩ := paddAddsPoints pd ps1 ps2 s
    simpa [hpt] using hsum hc (h.validSource_pt _) (h.validSource_pt _)
  case pdbl =>
    obtain ⟨-, hdouble, -⟩ := pdblDoublesAPoint pd ps1 s
    simpa [hpt] using hdouble hc (h.validSource_pt _)
  case pmul =>
    obtain ⟨-, -, ⟨hmultiple, -⟩, -⟩ := pmulMultipliesAPoint rn pd ps1 rk s
    simpa [hpt, scalarMul_inf] using hmultiple hc (h.validSource_pt _) h.not_singular
  case pmulG =>
    obtain ⟨-, -, -, ⟨hmultiple, -⟩⟩ := pmulMultipliesAPoint rn pd 0 rk s
    simpa [h.nat_eq_zero, scalarMul_zero] using
      hmultiple hc h.validSource_generator h.not_singular

/-! ### The idle machine -/

/-- Settles O57: idle, the machine has no latency left to pass. -/
theorem idleMachineIsQuiescent : Obligations.IdleMachineIsQuiescent := by
  intro s hs hr hb hi
  have hw : s.wait = 0 := hs.idle_wait hb
  have hpass : s.pass = { s with wait := 0 } := by simp [State.pass, hr, hw]
  calc step s = .next s.hostTurn := step_of_host (State.turn_of_idle hb)
    _ = .next s.pass := by rw [State.hostTurn, hi]
    _ = .next s := by rw [hpass, ← hw]

end Sys2Proof.Machine
end
